-- ==== Sys2Proof/Word.lean ====
section
/-! DEFINITION. The Word and the byte of the UVM core (spec 00_scope.md R8, R11, R14). -/

namespace Sys2Proof

/-- R11, R14: a 32-bit unsigned integer, the atomic unit of memory and of instruction encoding. -/
abbrev Word := BitVec 32

/-- R28 to R30: a byte 0 to 255 of the output log or of the input collaborator. -/
abbrev Byte := BitVec 8

end Sys2Proof
end

