-- ==== Sys2Proof/Syntax.lean ====
section
/-! DEFINITION. The abstract syntax of UVM-14: one constructor per row of spec/opcode_table.json, with the fields
that instruction reads (30_encoding.md R61, R62). -/

namespace Sys2Proof

/-- R16, R60: a register index 0 to 7, the value of a 3-bit register field (which cannot exceed 7). -/
abbrev RegIndex := Fin 8

/-- R2, R61: the 14 operations. `a`, `b`, `c` are the fields A, B, C of R58; `ia`, `iv` the fields IA, IV of R59. -/
inductive Instr where
  /-- CMOV (opcode 0), R77. -/
  | cmov (a b c : RegIndex)
  /-- SLOAD (opcode 1), R78. -/
  | sload (a b c : RegIndex)
  /-- SSTORE (opcode 2), R79. -/
  | sstore (a b c : RegIndex)
  /-- ADD (opcode 3), R81. -/
  | add (a b c : RegIndex)
  /-- MUL (opcode 4), R82. -/
  | mul (a b c : RegIndex)
  /-- DIV (opcode 5), R83. -/
  | div (a b c : RegIndex)
  /-- NAND (opcode 6), R84. -/
  | nand (a b c : RegIndex)
  /-- HALT (opcode 7), R85. -/
  | halt
  /-- ACTIVATE (opcode 8), R86. -/
  | activate (b c : RegIndex)
  /-- INACTIVATE (opcode 9), R87. -/
  | inactivate (c : RegIndex)
  /-- OUT (opcode 10), R88. -/
  | out (c : RegIndex)
  /-- IN (opcode 11), R89. -/
  | inp (c : RegIndex)
  /-- LOADP (opcode 12), R90. -/
  | loadp (b c : RegIndex)
  /-- LV (opcode 13), R93: `iv` is the unsigned number w[24:0]; `Instr.wf` bounds it. -/
  | lv (ia : RegIndex) (iv : Nat)
deriving DecidableEq, Repr

/-- R61, D1: the opcode number of each instruction. -/
def Instr.opcode : Instr → Nat
  | .cmov _ _ _ => 0
  | .sload _ _ _ => 1
  | .sstore _ _ _ => 2
  | .add _ _ _ => 3
  | .mul _ _ _ => 4
  | .div _ _ _ => 5
  | .nand _ _ _ => 6
  | .halt => 7
  | .activate _ _ => 8
  | .inactivate _ => 9
  | .out _ => 10
  | .inp _ => 11
  | .loadp _ _ => 12
  | .lv _ _ => 13

end Sys2Proof
end

