-- ==== Sys2Proof/WellFormed.lean ====
section
/-! DEFINITION. Which terms of `Instr` are instructions: a register index is below 8 by its type (R60), so the one
check left is the range of LV's immediate (R8, R59, R93). -/

namespace Sys2Proof

/-- R8, R59: IV is a 25-bit unsigned value, 0 to 2^25 - 1. -/
def immediateFits (iv : Nat) : Bool := decide (iv < 2 ^ 25)

/-- An instruction some word encodes. -/
def Instr.wf : Instr → Bool
  | .lv _ iv => immediateFits iv
  | .cmov _ _ _ | .sload _ _ _ | .sstore _ _ _ | .add _ _ _ | .mul _ _ _ | .div _ _ _ | .nand _ _ _ => true
  | .halt | .activate _ _ | .inactivate _ | .out _ | .inp _ | .loadp _ _ => true

end Sys2Proof
end

