-- ==== Sys2Proof/Decode.lean ====
section
/-! DEFINITION. The Instruction Codec (30_encoding.md R56 to R65): field extraction, the total decoder, and after it
the encoder. -/

namespace Sys2Proof

/-- R64: what decoding a word gives: one of the 14 operations, or the explicit invalid case with its opcode. -/
inductive Decoded where
  /-- A word whose opcode is 0 to 13. -/
  | instr (i : Instr)
  /-- R63: a word whose opcode is 14 or 15; executing it raises `InvalidOpcode`. -/
  | invalid (op : Nat)
deriving DecidableEq, Repr

/-- R57: `op = w[31:28]`, an unsigned number 0 to 15, read the same way in both formats. -/
def opcodeOf (w : Word) : Nat := (w.extractLsb' 28 4).toNat

/-- R60: the 3-bit register field of `w` whose lowest bit is bit `lo`. -/
def regField (w : Word) (lo : Nat) : RegIndex := (w.extractLsb' lo 3).toFin

/-- R58: `A = w[8:6]`. -/
def fieldA (w : Word) : RegIndex := regField w 6

/-- R58: `B = w[5:3]`. -/
def fieldB (w : Word) : RegIndex := regField w 3

/-- R58: `C = w[2:0]`. -/
def fieldC (w : Word) : RegIndex := regField w 0

/-- R59: `IA = w[27:25]`. -/
def fieldIA (w : Word) : RegIndex := regField w 25

/-- R59: `IV = w[24:0]`, a 25-bit unsigned value. -/
def fieldIV (w : Word) : Nat := (w.extractLsb' 0 25).toNat

/-- R61, R63, R64: the decoder, total on all words. It reads only the fields the instruction uses (R62, D11; log
entry 11); the numbering is D1's (log entry 8). -/
def decode (w : Word) : Decoded :=
  match opcodeOf w with
  | 0 => .instr (.cmov (fieldA w) (fieldB w) (fieldC w))
  | 1 => .instr (.sload (fieldA w) (fieldB w) (fieldC w))
  | 2 => .instr (.sstore (fieldA w) (fieldB w) (fieldC w))
  | 3 => .instr (.add (fieldA w) (fieldB w) (fieldC w))
  | 4 => .instr (.mul (fieldA w) (fieldB w) (fieldC w))
  | 5 => .instr (.div (fieldA w) (fieldB w) (fieldC w))
  | 6 => .instr (.nand (fieldA w) (fieldB w) (fieldC w))
  | 7 => .instr .halt
  | 8 => .instr (.activate (fieldB w) (fieldC w))
  | 9 => .instr (.inactivate (fieldC w))
  | 10 => .instr (.out (fieldC w))
  | 11 => .instr (.inp (fieldC w))
  | 12 => .instr (.loadp (fieldB w) (fieldC w))
  | 13 => .instr (.lv (fieldIA w) (fieldIV w))
  | op => .invalid op

/-- The instruction the decoder reads from a table row's word: every row is one 32-bit Word (R56), and every bit at
or above `nbits` is 0. -/
def decodeTableWord (nbits w : Nat) : Option Instr :=
  match decode (BitVec.ofNat 32 (w % 2 ^ nbits)) with
  | .instr i => some i
  | .invalid _ => none

/-! ## The encoder -/

/-- R65: `(op << 28) | (A << 6) | (B << 3) | C`, with bits 27 to 9 zero. -/
def encodeThree (op : Nat) (a b c : RegIndex) : Word :=
  (BitVec.ofNat 32 op <<< 28) ||| (BitVec.ofNat 32 a.val <<< 6) ||| (BitVec.ofNat 32 b.val <<< 3)
    ||| BitVec.ofNat 32 c.val

/-- R65: `(13 << 28) | (IA << 25) | IV`. -/
def encodeImmediate (ia : RegIndex) (iv : Nat) : Word :=
  (BitVec.ofNat 32 13 <<< 28) ||| (BitVec.ofNat 32 ia.val <<< 25) ||| BitVec.ofNat 32 iv

/-- R61, R65: the word of a well-formed instruction, zeros in every bit it does not use. -/
def encode : Instr → Word
  | .cmov a b c => encodeThree 0 a b c
  | .sload a b c => encodeThree 1 a b c
  | .sstore a b c => encodeThree 2 a b c
  | .add a b c => encodeThree 3 a b c
  | .mul a b c => encodeThree 4 a b c
  | .div a b c => encodeThree 5 a b c
  | .nand a b c => encodeThree 6 a b c
  | .halt => encodeThree 7 0 0 0
  | .activate b c => encodeThree 8 0 b c
  | .inactivate c => encodeThree 9 0 0 c
  | .out c => encodeThree 10 0 0 c
  | .inp c => encodeThree 11 0 0 c
  | .loadp b c => encodeThree 12 0 b c
  | .lv ia iv => encodeImmediate ia iv

/-- R58, R59, R62: the bits an instruction with opcode `op` reads; every other bit of the word is ignored. -/
def readMask (op : Nat) : Word :=
  match op with
  | 0 | 1 | 2 | 3 | 4 | 5 | 6 => 0xF00001FF#32
  | 7 => 0xF0000000#32
  | 8 | 12 => 0xF000003F#32
  | 9 | 10 | 11 => 0xF0000007#32
  | 13 => 0xFFFFFFFF#32
  | _ => 0xF0000000#32

end Sys2Proof
end

