-- ==== Sys2Proof/Config.lean ====
section
/-! DEFINITION. The parameters of 00_scope.md R9: the fixed bounds, and the two the spec leaves open (INPUT and
ALLOC_OK), which are free values: opaque constants of which nothing can be proved. -/

namespace Sys2Proof

/-- R30: what the input collaborator answers to one IN: a byte, or the distinct value `EOS`. -/
inductive InputAnswer where
  | byte (b : Byte)
  | eos
deriving DecidableEq, Repr, Inhabited

/-- R9, D8: `HANDLE_MAX`, the largest handle a map may return. -/
def Config.handleMax : Nat := 2 ^ 32 - 1

/-- R9, D9: `PROGRAM_MAX`, the largest initial program, in words. -/
def Config.programMax : Nat := 2 ^ 32 - 1

/-- R9, R22: the largest length of a segment, in words (a size operand is a 32-bit register value). -/
def Config.segmentMax : Nat := 2 ^ 32 - 1

/-- R9, D2: `PC_RESET`, the program counter before the first fetch (log entry 1). -/
def Config.pcReset : Nat := 0

/-- R30, D10 (`INPUT`, OPEN): the host's answer to the IN of draw number `n`, with no law across calls.
A free value, SAFE: log entry 3. -/
opaque Config.input : Nat → InputAnswer

/-- R9, R37, D8 (`ALLOC_OK(state, n)`, OPEN): whether storage for a new segment of `n` words can be provided.
It is applied to the whole `Machine.State`, which is declared after this file: hence the type variable.
A free value, SAFE: log entry 2. -/
opaque Config.allocOk {σ : Type} (state : σ) (n : Nat) : Bool

end Sys2Proof
end

