-- ==== Sys2Proof/Machine/State.lean ====
section
/-! DEFINITION. The architectural state of the UVM core (10_state.md R16 to R33) as plain data, the fault kinds
(60_exceptions.md R96), and the state right after reset. -/

namespace Sys2Proof.Machine

/-- R96: the eight fault kinds. A fault of the engine is a NEXT state whose run state carries its kind (R95). -/
inductive FaultKind where
  /-- Code 1: the decoded opcode is 14 or 15. -/
  | invalidOpcode
  /-- Code 2: handle at or beyond the segment count, or an unmapped slot. -/
  | segmentOutOfRange
  /-- Code 3: word index at or beyond the segment's length; also a fetch at or beyond the end of segment 0. -/
  | wordIndexOutOfRange
  /-- Code 4: DIV with a divisor of 0. -/
  | divideByZero
  /-- Code 5: unmap of handle 0 or of an already free handle. -/
  | invalidUnmap
  /-- Code 6: OUT of a value above 255. -/
  | outputOverflow
  /-- Code 7: LOADP to a target at or beyond the new segment 0's length. -/
  | programCounterOutOfRange
  /-- Code 8 (the spec's own, D8): `ALLOC_OK` false, or no handle at most `HANDLE_MAX` left. -/
  | resourceExhausted
deriving DecidableEq, Repr

/-- R25: the three run states; `halted` and `faulted` are terminal. -/
inductive RunState where
  | running
  | halted
  | faulted (kind : FaultKind)
deriving DecidableEq, Repr

/-- R22: a segment, `len` words addressed from 0. The words are held sparse, as (index, word) pairs in one canonical
form (`Segment.wf` in Ops.lean): an index below `len` that `cells` does not list reads as 0, the value every word is
created with (log entry 13). -/
structure Segment where
  len : Nat
  cells : List (Nat × Word)
deriving DecidableEq, Repr

/-- R21: a slot of the Segment Table. -/
inductive Slot where
  | mapped (segment : Segment)
  | unmapped
deriving DecidableEq, Repr

/-- R21, R24: the Segment Table (slot `h` is element `h`; the length is the segment count) and the free pool, oldest
freed handle first. -/
structure Memory where
  slots : List Slot
  free : List Nat
deriving DecidableEq, Repr

/-- The MODEL's own fields, not the spec's: the answers of the outside world (parameters INPUT and ALLOC_OK of R9)
that have been decided already, oldest first, and how many have been drawn. Past the end of a script every answer is a
free value of Config (log entries 2, 3, 4). -/
structure HostAnswers where
  inputScript : List InputAnswer
  inputDraws : Nat
  allocScript : List Bool
  allocDraws : Nat
deriving DecidableEq, Repr

/-- R26: registers, program counter, Segment Table with its free pool, run state, and the output log (R28); and the
model's own `host`. -/
structure State where
  regs : Vector Word 8
  pc : Nat
  mem : Memory
  run : RunState
  out : List Byte
  host : HostAnswers
deriving DecidableEq, Repr

/-- Why no step exists. R25: `Halted` and `Faulted(K)` have no successor, so `step` (and nothing else) answers one of
these there; no meaning of an instruction does. SAFE: the machine does not go on either (log entry 6). -/
inductive Fault where
  /-- Raised by `step` alone, in the run state `Halted` (R25, R103). SAFE. -/
  | engineHalted
  /-- Raised by `step` alone, in the run state `Faulted(K)`, carrying K to the host (R25, R31, R99). SAFE. -/
  | engineFaulted (kind : FaultKind)
deriving DecidableEq, Repr

/-- What the model gives no meaning to. No meaning of an instruction answers one of these. -/
inductive Refusal where
  /-- An instruction without a meaning yet, raised by a refused arm of `exec`: there is none. SAFE. -/
  | notModelled (mnemonic : String)
  /-- R27, D9: an initial program of more than `PROGRAM_MAX` words, raised by the loader. SAFE. -/
  | programTooLong
  /-- R27, R109: a program file whose byte length is not a multiple of 4, raised by the loader. SAFE. -/
  | fileLengthNotMultipleOf4
deriving DecidableEq, Repr

/-- R33: the reset state, with nothing placed: the initial word sequence is the loader's (R27), and here it is empty
(log entry 5; `State.boot` gives the reset state for any program). The host's scripts are empty and nothing has been
drawn (log entry 4). -/
def State.reset : State :=
  { regs := Vector.replicate 8 0#32
    pc := Config.pcReset
    mem := { slots := [.mapped { len := 0, cells := [] }], free := [] }
    run := .running
    out := []
    host := { inputScript := [], inputDraws := 0, allocScript := [], allocDraws := 0 } }

end Sys2Proof.Machine
end

