-- ==== Sys2Proof/Machine/Ops.lean ====
section
/-! DEFINITION. The named operations every meaning is written over: registers and program counter, the words of a
segment, the Segment Manager (20_memory.md R36 to R42), the host interfaces (10_state.md R28 to R30), and taking a
fault (60_exceptions.md R95). -/

namespace Sys2Proof.Machine

/-! ## Registers and program counter -/

/-- R12: `reg[i]`. -/
def State.readReg (s : State) (i : RegIndex) : Word := s.regs[i.val]

/-- R12, R16, R17: `reg[i] <- v`; no register is hardwired. -/
def State.writeReg (s : State) (i : RegIndex) (v : Word) : State := { s with regs := s.regs.set i.val v }

/-- R12: `pc <- t`. -/
def State.setPc (s : State) (t : Nat) : State := { s with pc := t }

/-- R70: `pc <- pc + 1`, committed before dispatch. -/
def State.advancePc (s : State) : State := s.setPc (s.pc + 1)

/-! ## The words of a segment -/

/-- R22: the word at index `i`; an index that is not listed holds 0. -/
def cellsGet : List (Nat × Word) → Nat → Word
  | [], _ => 0#32
  | (j, w) :: rest, i => if i = j then w else cellsGet rest i

/-- Puts `v` at index `i`, keeping the canonical form: a word of 0 is not listed. -/
def cellsPut : List (Nat × Word) → Nat → Word → List (Nat × Word)
  | [], i, v => if v = 0#32 then [] else [(i, v)]
  | (j, w) :: rest, i, v =>
    if i < j then (if v = 0#32 then (j, w) :: rest else (i, v) :: (j, w) :: rest)
    else if i = j then (if v = 0#32 then rest else (i, v) :: rest)
    else (j, w) :: cellsPut rest i v

/-- The canonical form: indices strictly rising, each at least `lo` and below `hi`, and no listed word 0. -/
def cellsCanonical (lo hi : Nat) : List (Nat × Word) → Bool
  | [] => true
  | (i, w) :: rest => decide (lo ≤ i) && decide (i < hi) && decide (w ≠ 0#32) && cellsCanonical (i + 1) hi rest

/-- The cells of the words `ws` laid out from index `i`. -/
def cellsOfWords : Nat → List Word → List (Nat × Word)
  | _, [] => []
  | i, w :: rest => if w = 0#32 then cellsOfWords (i + 1) rest else (i, w) :: cellsOfWords (i + 1) rest

/-- R37: a zero-filled segment of `n` words. -/
def Segment.zeros (n : Nat) : Segment := { len := n, cells := [] }

/-- R36: the segment that holds exactly the words `ws`. -/
def Segment.ofWords (ws : List Word) : Segment := { len := ws.length, cells := cellsOfWords 0 ws }

/-- The word at index `i` of a segment. -/
def Segment.word (g : Segment) (i : Nat) : Word := cellsGet g.cells i

/-- R40: `s[i] <- v`; the length never changes (R22). -/
def Segment.setWord (g : Segment) (i : Nat) (v : Word) : Segment := { g with cells := cellsPut g.cells i v }

/-- R9, R22: the words are in the canonical form, all inside the segment, and the length is at most 2^32 - 1. -/
def Segment.wf (g : Segment) : Bool :=
  decide (g.len ≤ Config.segmentMax) && cellsCanonical 0 g.len g.cells

/-- The canonical form of one slot. -/
def Slot.wf : Slot → Bool
  | .mapped g => g.wf
  | .unmapped => true

/-- The memory's canonical form: equal contents are equal data. -/
def Memory.wf (m : Memory) : Bool := m.slots.all Slot.wf

/-! ## The Segment Manager -/

/-- R21: the segment count, mapped and unmapped slots together. -/
def Memory.count (m : Memory) : Nat := m.slots.length

/-- R34: the segment that handle `h` names, if `h` is below the count and its slot is mapped. -/
def Memory.segment? (m : Memory) (h : Nat) : Option Segment :=
  match m.slots[h]? with
  | some (.mapped g) => some g
  | _ => none

/-- Puts `x` into slot `h`. -/
def Memory.setSlot (m : Memory) (h : Nat) (x : Slot) : Memory := { m with slots := m.slots.set h x }

/-- R36: `initialize(P)`: one slot, handle 0, holding exactly `P`; the free pool is empty. -/
def Memory.ofProgram (ws : List Word) : Memory := { slots := [.mapped (Segment.ofWords ws)], free := [] }

/-- R42: `ProgLen()`, the current word count of segment 0 (0 in a state with no segment 0, which no run reaches). -/
def Memory.progLen (m : Memory) : Nat :=
  match m.segment? 0 with
  | some g => g.len
  | none => 0

/-- R39: `SegRead(h, i)`: the handle is tested before the index (D7, log entry 9). No side effect. -/
def State.segRead (s : State) (h i : Nat) : Except FaultKind Word :=
  match s.mem.segment? h with
  | none => .error .segmentOutOfRange
  | some g => if i < g.len then .ok (g.word i) else .error .wordIndexOutOfRange

/-- R40: `SegWrite(h, i, v)`, with the bounds checks of `segRead`. Segment 0 may be written. -/
def State.segWrite (s : State) (h i : Nat) (v : Word) : Except FaultKind State :=
  match s.mem.segment? h with
  | none => .error .segmentOutOfRange
  | some g =>
    if i < g.len then .ok { s with mem := s.mem.setSlot h (.mapped (g.setWord i v)) }
    else .error .wordIndexOutOfRange

/-- R9, D8: the host's answer `ALLOC_OK(state, n)`: the next of the answers decided already, else the free value of
Config applied to the current state (log entries 2, 14). -/
def State.allocOk (s : State) (n : Nat) : Bool :=
  match s.host.allocScript with
  | answer :: _ => answer
  | [] => Config.allocOk s n

/-- The host after an answer to `ALLOC_OK` has been used. -/
def HostAnswers.afterAlloc (x : HostAnswers) : HostAnswers :=
  { x with allocScript := x.allocScript.tail, allocDraws := x.allocDraws + 1 }

/-- R37: `SegMap(n)`: the oldest free handle, else a fresh handle equal to the segment count, with a zero-filled
segment of `n` words. -/
def State.segMap (s : State) (n : Nat) : Except FaultKind (Nat × State) :=
  if s.allocOk n then
    match s.mem.free with
    | h :: rest =>
      .ok (h, { s with
        mem := { slots := s.mem.slots.set h (.mapped (Segment.zeros n)), free := rest }
        host := s.host.afterAlloc })
    | [] =>
      if s.mem.count ≤ Config.handleMax then
        .ok (s.mem.count, { s with
          mem := { slots := s.mem.slots ++ [.mapped (Segment.zeros n)], free := [] }
          host := s.host.afterAlloc })
      else .error .resourceExhausted
  else .error .resourceExhausted

/-- R38: `SegUnmap(h)`: the storage is destroyed and the handle joins the tail of the free pool. The kinds are D5's
(log entry 9). -/
def State.segUnmap (s : State) (h : Nat) : Except FaultKind State :=
  if s.mem.count ≤ h then .error .segmentOutOfRange
  else if h = 0 then .error .invalidUnmap
  else match s.mem.segment? h with
    | none => .error .invalidUnmap
    | some _ => .ok { s with mem := { slots := s.mem.slots.set h .unmapped, free := s.mem.free ++ [h] } }

/-- R41: `SegReplace(h)`: nothing for handle 0; otherwise segment 0 becomes a copy of segment `h`. An unmapped `h`
raises `SegmentOutOfRange` (D6, log entry 9). -/
def State.segReplace (s : State) (h : Nat) : Except FaultKind State :=
  if s.mem.count ≤ h then .error .segmentOutOfRange
  else if h = 0 then .ok s
  else match s.mem.segment? h with
    | none => .error .segmentOutOfRange
    | some g =>
      if s.allocOk g.len then
        .ok { s with mem := s.mem.setSlot 0 (.mapped g), host := s.host.afterAlloc }
      else .error .resourceExhausted

/-! ## The host interfaces of OUT and IN -/

/-- R29: `Emit(v)` appends a byte to the output log; the output collaborator always accepts it (D14). -/
def State.emit (s : State) (b : Byte) : State := { s with out := s.out ++ [b] }

/-- R30: the answer the next `Input()` gets: the next of the answers decided already, else the free value of Config
for this draw (log entry 3). -/
def State.nextInput (s : State) : InputAnswer :=
  match s.host.inputScript with
  | answer :: _ => answer
  | [] => Config.input s.host.inputDraws

/-- The host after an `Input()` has been answered. -/
def HostAnswers.afterInput (x : HostAnswers) : HostAnswers :=
  { x with inputScript := x.inputScript.tail, inputDraws := x.inputDraws + 1 }

/-- R30: one answer is used up. -/
def State.drawInput (s : State) : State := { s with host := s.host.afterInput }

/-! ## Taking a fault -/

/-- R95: fault entry. Applied to the state from before the step, it sets the run state to `Faulted(K)` and changes
nothing else; nothing is saved anywhere and no handler runs. There is no return from a fault (R100). -/
def State.enterFault (s : State) (k : FaultKind) : State := { s with run := .faulted k }

/-- R68, R70, R95: one instruction as an indivisible unit. The program counter is advanced, then `body` runs; if it
raises a fault kind, everything it did and the advance are discarded (C1, D3; log entry 7). -/
def State.runInstr (s : State) (body : State → Except FaultKind State) : Host.Outcome State Fault Refusal :=
  .next (match body s.advancePc with
    | .ok t => t
    | .error k => s.enterFault k)

end Sys2Proof.Machine
end

