-- ==== Sys2Proof/Machine/Operands.lean ====
section
/-! DEFINITION. The operand forms (30_encoding.md R60, 41_register_memory.md R76): registers taken as a handle, an
index, a size or a target, the one addressing mode, and the zero-extended immediate. The machine has no flags (R26),
so no file of flag computations stands beside this one. -/

namespace Sys2Proof.Machine

/-- R11: a register's unsigned value, where it is taken as a handle, word index, size, divisor or jump target. -/
def State.regNat (s : State) (i : RegIndex) : Nat := (s.readReg i).toNat

/-- R34: an address is a handle and a word index. -/
structure SegAddr where
  handle : Nat
  index : Nat
deriving DecidableEq, Repr

/-- R76: the one addressing mode, the pair of two registers as they stand. -/
def State.segAddr (s : State) (rh ri : RegIndex) : SegAddr := { handle := s.regNat rh, index := s.regNat ri }

/-- R12, R60: `zext_32(v)`, `v` read as an unsigned number, placed in 32 bits with zeros above. -/
def zext32 (v : Nat) : Word := BitVec.ofNat 32 v

/-- R89: what IN writes for an answer: the byte zero-extended, or 0xFFFFFFFF at end of stream. -/
def inputWord : InputAnswer → Word
  | .byte b => zext32 b.toNat
  | .eos => 0xFFFFFFFF#32

end Sys2Proof.Machine
end

