-- ==== Sys2Proof/Machine/Arithmetic.lean ====
section
/-! DEFINITION. Opcodes 3 to 6 (42_arithmetic_logic.md): ADD, MUL, DIV, NAND. All values are unsigned; the exact
natural-number result is kept modulo 2^32, and no carry or overflow is reported (R80). -/

namespace Sys2Proof.Machine

/-- R17, R80: the natural number `n` stored modulo 2^32. -/
def wrap32 (n : Nat) : Word := BitVec.ofNat 32 n

/-- R81, ADD: `reg[A] <- (reg[B] + reg[C]) mod 2^32`. -/
def execAdd (a b c : RegIndex) (s : State) : Host.Outcome State Fault Refusal :=
  s.runInstr fun t => .ok (t.writeReg a (wrap32 (t.regNat b + t.regNat c)))

/-- R82, MUL: `reg[A] <- (reg[B] * reg[C]) mod 2^32`. -/
def execMul (a b c : RegIndex) (s : State) : Host.Outcome State Fault Refusal :=
  s.runInstr fun t => .ok (t.writeReg a (wrap32 (t.regNat b * t.regNat c)))

/-- R83, DIV: `DivideByZero` if the divisor is 0 whatever the dividend, else the quotient rounded toward zero. -/
def execDiv (a b c : RegIndex) (s : State) : Host.Outcome State Fault Refusal :=
  s.runInstr fun t =>
    if t.regNat c = 0 then .error .divideByZero
    else .ok (t.writeReg a (wrap32 (t.regNat b / t.regNat c)))

/-- R84, NAND: `reg[A] <- ~(reg[B] & reg[C])`, over all 32 bits. -/
def execNand (a b c : RegIndex) (s : State) : Host.Outcome State Fault Refusal :=
  s.runInstr fun t => .ok (t.writeReg a (~~~(t.readReg b &&& t.readReg c)))

end Sys2Proof.Machine
end

