-- ==== Sys2Proof/Machine/HaltSegments.lean ====
section
/-! DEFINITION. Opcodes 7 to 9 (43_halt_segments.md): HALT, ACTIVATE, INACTIVATE. No privilege is needed (R102). -/

namespace Sys2Proof.Machine

/-- R85, HALT: the run state becomes `Halted`; `pc` keeps the advanced value. -/
def execHalt (s : State) : Host.Outcome State Fault Refusal :=
  s.runInstr fun t => .ok { t with run := .halted }

/-- R86, ACTIVATE: `h <- SegMap(reg[C]); reg[B] <- h`. -/
def execActivate (b c : RegIndex) (s : State) : Host.Outcome State Fault Refusal :=
  s.runInstr fun t =>
    match t.segMap (t.regNat c) with
    | .ok (h, u) => .ok (u.writeReg b (zext32 h))
    | .error k => .error k

/-- R87, INACTIVATE: `InvalidUnmap` if `reg[C] = 0`, else `SegUnmap(reg[C])`. No register is written. -/
def execInactivate (c : RegIndex) (s : State) : Host.Outcome State Fault Refusal :=
  s.runInstr fun t => if t.regNat c = 0 then .error .invalidUnmap else t.segUnmap (t.regNat c)

end Sys2Proof.Machine
end

