-- ==== Sys2Proof/Machine/InputOutput.lean ====
section
/-! DEFINITION. Opcodes 10 and 11 (44_io.md): OUT, IN. -/

namespace Sys2Proof.Machine

/-- R88, OUT: `OutputOverflow` if `reg[C] > 255`, else the byte is emitted. No register is written. -/
def execOut (c : RegIndex) (s : State) : Host.Outcome State Fault Refusal :=
  s.runInstr fun t =>
    if 255 < t.regNat c then .error .outputOverflow else .ok (t.emit (BitVec.ofNat 8 (t.regNat c)))

/-- R89, IN: `reg[C]` becomes the byte zero-extended, or 0xFFFFFFFF at end of stream. -/
def execInp (c : RegIndex) (s : State) : Host.Outcome State Fault Refusal :=
  s.runInstr fun t => .ok (t.drawInput.writeReg c (inputWord t.nextInput))

end Sys2Proof.Machine
end

