-- ==== Sys2Proof/Machine/LoadImmediate.lean ====
section
/-! DEFINITION. Opcode 13 (46_load_immediate.md): LV, the only instruction in the immediate-load format. -/

namespace Sys2Proof.Machine

/-- R93, LV: `reg[IA] <- zext_32(IV)`. -/
def execLv (ia : RegIndex) (iv : Nat) (s : State) : Host.Outcome State Fault Refusal :=
  s.runInstr fun t => .ok (t.writeReg ia (zext32 iv))

end Sys2Proof.Machine
end

