-- ==== Sys2Proof/Machine/ProgramLoad.lean ====
section
/-! DEFINITION. Opcode 12 (45_program_load.md): LOADP, the only instruction that writes the program counter (R91). -/

namespace Sys2Proof.Machine

/-- R90: the bound check of LOADP, against the new segment 0, made whatever the handle was. -/
def State.checkPc (s : State) : Except FaultKind State :=
  if s.mem.progLen ≤ s.pc then .error .programCounterOutOfRange else .ok s

/-- R90, LOADP: `pc <- reg[C]; SegReplace(reg[B]); raise ProgramCounterOutOfRange if pc >= ProgLen()`. On a fault
neither the pc write nor the replacement persists (C1, R95). -/
def execLoadp (b c : RegIndex) (s : State) : Host.Outcome State Fault Refusal :=
  s.runInstr fun t =>
    match (t.setPc (t.regNat c)).segReplace (t.regNat b) with
    | .ok u => u.checkPc
    | .error k => .error k

end Sys2Proof.Machine
end

