-- ==== Sys2Proof/Machine/RegisterMemory.lean ====
section
/-! DEFINITION. Opcodes 0 to 2 (41_register_memory.md): CMOV, SLOAD, SSTORE. Operands are read before any register is
written (R73). -/

namespace Sys2Proof.Machine

/-- R77, CMOV: `if reg[C] != 0: reg[A] <- reg[B]`. -/
def execCmov (a b c : RegIndex) (s : State) : Host.Outcome State Fault Refusal :=
  s.runInstr fun t => .ok (if t.readReg c ≠ 0#32 then t.writeReg a (t.readReg b) else t)

/-- R78, SLOAD: `v <- SegRead(reg[B], reg[C]); reg[A] <- v`. -/
def execSload (a b c : RegIndex) (s : State) : Host.Outcome State Fault Refusal :=
  s.runInstr fun t =>
    match t.segRead (t.segAddr b c).handle (t.segAddr b c).index with
    | .ok v => .ok (t.writeReg a v)
    | .error k => .error k

/-- R79, SSTORE: `SegWrite(reg[A], reg[B], reg[C])`. No register is written. -/
def execSstore (a b c : RegIndex) (s : State) : Host.Outcome State Fault Refusal :=
  s.runInstr fun t => t.segWrite (t.segAddr a b).handle (t.segAddr a b).index (t.readReg c)

end Sys2Proof.Machine
end

