-- ==== Sys2Proof/Machine/Dispatch.lean ====
section
/-! DEFINITION. R72: dispatch, an exhaustive match over the 14 operations. Each meaning is given the state from before
the step and performs the advance of R70 itself, so that a fault can leave that state (R95; log entry 12). -/

namespace Sys2Proof.Machine

def exec (i : Instr) (s : State) : Host.Outcome State Fault Refusal :=
  match i with
  | .cmov a b c => Sys2Proof.Machine.execCmov a b c s
  | .sload a b c => Sys2Proof.Machine.execSload a b c s
  | .sstore a b c => Sys2Proof.Machine.execSstore a b c s
  | .add a b c => Sys2Proof.Machine.execAdd a b c s
  | .mul a b c => Sys2Proof.Machine.execMul a b c s
  | .div a b c => Sys2Proof.Machine.execDiv a b c s
  | .nand a b c => Sys2Proof.Machine.execNand a b c s
  | .halt => Sys2Proof.Machine.execHalt s
  | .activate b c => Sys2Proof.Machine.execActivate b c s
  | .inactivate c => Sys2Proof.Machine.execInactivate c s
  | .out c => Sys2Proof.Machine.execOut c s
  | .inp c => Sys2Proof.Machine.execInp c s
  | .loadp b c => Sys2Proof.Machine.execLoadp b c s
  | .lv ia iv => Sys2Proof.Machine.execLv ia iv s

end Sys2Proof.Machine
end

