-- ==== Sys2Proof/Machine/Fetch.lean ====
section
/-! DEFINITION. R69: the fetch, and placing a word where the next fetch reads it. -/

namespace Sys2Proof.Machine

/-- R69: `w <- SegRead(0, pc)`, with its bounds check; it reads current memory (R54). -/
def State.fetch (s : State) : Except FaultKind Word := s.segRead 0 s.pc

/-- Segment 0 as the table holds it, or an empty one where there is none (no run reaches such a state). -/
def Memory.programOrEmpty (m : Memory) : Segment := (m.segment? 0).getD (Segment.zeros 0)

/-- Slot 0 replaced, or made where the table is empty. -/
def Memory.withProgram (m : Memory) (g : Segment) : Memory := { m with slots := .mapped g :: m.slots.tail }

/-- Puts `w` at index `pc` of segment 0, made long enough to hold it, with the engine running: all that the next
fetch needs (log entry 5). -/
def State.placeFetchWord (s : State) (w : Word) : State :=
  let g := s.mem.programOrEmpty
  { s with
    mem := s.mem.withProgram { len := max g.len (s.pc + 1), cells := cellsPut g.cells s.pc w }
    run := .running }

end Sys2Proof.Machine
end

