-- ==== Sys2Proof/Machine/Step.lean ====
section
/-! DEFINITION. R68 to R72: one step of the Execution Engine. -/

namespace Sys2Proof.Machine

/-- R72: `Step()`. It exists only while the run state is `Running` (R25); a fetch or decode that raises enters the
fault from the state before the step (R95). -/
def step (s : State) : Host.Outcome State Fault Refusal :=
  match s.run with
  | .halted => .fault .engineHalted
  | .faulted k => .fault (.engineFaulted k)
  | .running =>
    match s.fetch with
    | .error k => .next (s.enterFault k)
    | .ok w =>
      match decode w with
      | .invalid _ => .next (s.enterFault .invalidOpcode)
      | .instr i => exec i s

/-- `s` with the instruction of `nbits` bits `w` (one 32-bit Word, R56) stored where `step` fetches next. -/
def State.withFetchWord (s : State) (nbits w : Nat) : State := s.placeFetchWord (BitVec.ofNat 32 (w % 2 ^ nbits))

end Sys2Proof.Machine
end

