-- ==== Sys2Proof/Machine/HostInterface.lean ====
section
/-! DEFINITION. The interfaces to the host side that no instruction uses: program load (10_state.md R27, 20_memory.md
R36, 70_reset_and_hazards.md R108, R109), termination status (10_state.md R31, R110; fault codes of 60_exceptions.md R96)
and teardown (20_memory.md R43). -/

namespace Sys2Proof.Machine

/-! ## Program load -/

/-- R27, R47: the word of four file bytes, most significant first. -/
def wordOfBytes (b3 b2 b1 b0 : Byte) : Word := b3 ++ b2 ++ b1 ++ b0

/-- R27: the four bytes of a word as the program file stores them, most significant first. -/
def bytesOfWord (w : Word) : List Byte :=
  [w.extractLsb' 24 8, w.extractLsb' 16 8, w.extractLsb' 8 8, w.extractLsb' 0 8]

/-- R27, R109: the words of a program file; refused where its byte length is not a multiple of 4. -/
def wordsOfFile : List Byte → Except Refusal (List Word)
  | [] => .ok []
  | b3 :: b2 :: b1 :: b0 :: rest =>
    match wordsOfFile rest with
    | .ok ws => .ok (wordOfBytes b3 b2 b1 b0 :: ws)
    | .error r => .error r
  | _ => .error .fileLengthNotMultipleOf4

/-- R33, R36, R108: the reset state for the initial word sequence `ws`, before the first fetch. -/
def State.boot (ws : List Word) : State := { State.reset with mem := Memory.ofProgram ws }

/-- R27, D9: the program load interface: a sequence of more than `PROGRAM_MAX` words is refused. -/
def loadWords (ws : List Word) : Except Refusal State :=
  if ws.length ≤ Config.programMax then .ok (State.boot ws) else .error .programTooLong

/-- R108, R109: from the bytes of a program file to the state before the first fetch. -/
def loadFile (bytes : List Byte) : Except Refusal State :=
  match wordsOfFile bytes with
  | .ok ws => loadWords ws
  | .error r => .error r

/-! ## Termination status -/

/-- R96: the numeric code of a fault kind (labels of the spec's own, D4). -/
def FaultKind.code : FaultKind → Nat
  | .invalidOpcode => 1
  | .segmentOutOfRange => 2
  | .wordIndexOutOfRange => 3
  | .divideByZero => 4
  | .invalidUnmap => 5
  | .outputOverflow => 6
  | .programCounterOutOfRange => 7
  | .resourceExhausted => 8

/-- R31: what the host reads when a run has ended: success on Halted, failure on Faulted with the kind. -/
inductive TerminationStatus where
  | success
  | failure (kind : FaultKind)
deriving DecidableEq, Repr

/-- R31: the termination status, none while the engine runs. -/
def State.status (s : State) : Option TerminationStatus :=
  match s.run with
  | .running => none
  | .halted => some .success
  | .faulted k => some (.failure k)

/-- R43, D18: `teardown()`, which the host calls once after the run has ended; it is no step of the engine. All segment
storage and the free pool are released. -/
def State.teardown (s : State) : State := { s with mem := { slots := [], free := [] } }

/-- R110: what a run produced, the pair of its final run state and its output log. -/
def State.produced (s : State) : RunState × List Byte := (s.run, s.out)

end Sys2Proof.Machine
end

