-- ==== Sys2Proof/Safety.lean ====
section
/-! DEFINITION. The terms the statements about the machine use: reading one word, the invariant of the reachable
states, what a step leaves alone, and which instruction may write or raise what. -/

namespace Sys2Proof.Machine

/-- The model's read of one word of memory, none where no word is (R34). -/
def State.wordAt (s : State) (h i : Nat) : Option Word :=
  match s.segRead h i with
  | .ok v => some v
  | .error _ => none

/-- What the spec says of every reachable state. -/
structure State.Inv (s : State) : Prop where
  /-- R22, R9: every segment is in the canonical form, of length at most 2^32 - 1. -/
  canonical : s.mem.wf = true
  /-- R23: handle 0 is always mapped. -/
  programMapped : (s.mem.segment? 0).isSome = true
  /-- R37, D8: no handle above `HANDLE_MAX` is ever made. -/
  countBound : s.mem.count ≤ Config.handleMax + 1
  /-- R24: a handle in the free pool names an unmapped slot. -/
  freeUnmapped : ∀ h ∈ s.mem.free, s.mem.slots[h]? = some .unmapped
  /-- R24: an unmapped slot's handle is in the free pool. -/
  unmappedFree : ∀ h < s.mem.slots.length, s.mem.slots[h]? = some .unmapped → h ∈ s.mem.free
  /-- R24: no handle is in the free pool twice. -/
  freeNodup : s.mem.free.Nodup
  /-- R19: the program counter is at most 2^32 - 1. -/
  pcBound : s.pc ≤ 2 ^ 32 - 1

/-- The run state carries a fault kind. -/
def State.hasFaulted (s : State) : Bool :=
  match s.run with
  | .faulted _ => true
  | _ => false

/-- Memory is left alone: the table and the free pool, and so every word of every segment. -/
def State.memoryKept (s t : State) : Prop := t.mem = s.mem ∧ ∀ h i, t.wordAt h i = s.wordAt h i

/-- What an instruction that only writes register `a` does: the pc advances by one (R70), register `a` holds `v`,
every other register, memory, the run state, the output log and the host's answers are as before. -/
def State.writesOnly (s t : State) (a : RegIndex) (v : Word) : Prop :=
  t.pc = s.pc + 1 ∧ (∀ r, t.readReg r = if r = a then v else s.readReg r) ∧ s.memoryKept t ∧
    t.run = s.run ∧ t.out = s.out ∧ t.host = s.host

/-- Every register is left alone. -/
def State.registersKept (s t : State) : Prop := ∀ r, t.readReg r = s.readReg r

end Sys2Proof.Machine

namespace Sys2Proof

/-- R17: the register an instruction may write, if its rule lets it write one. -/
def Instr.destination : Instr → Option RegIndex
  | .cmov a _ _ | .sload a _ _ | .add a _ _ | .mul a _ _ | .div a _ _ | .nand a _ _ => some a
  | .activate b _ => some b
  | .inp c => some c
  | .lv ia _ => some ia
  | .sstore _ _ _ | .halt | .inactivate _ | .out _ | .loadp _ _ => none

/-- R97: the fault kinds an instruction's own rule can raise. -/
def Instr.faultKinds : Instr → List Machine.FaultKind
  | .sload _ _ _ | .sstore _ _ _ => [.segmentOutOfRange, .wordIndexOutOfRange]
  | .div _ _ _ => [.divideByZero]
  | .activate _ _ => [.resourceExhausted]
  | .inactivate _ => [.invalidUnmap, .segmentOutOfRange]
  | .out _ => [.outputOverflow]
  | .loadp _ _ => [.segmentOutOfRange, .resourceExhausted, .programCounterOutOfRange]
  | .cmov _ _ _ | .add _ _ _ | .mul _ _ _ | .nand _ _ _ | .halt | .inp _ | .lv _ _ => []

/-- R35: the instructions that reach memory beyond their own fetch. -/
def Instr.reachesMemory : Instr → Bool
  | .sload _ _ _ | .sstore _ _ _ | .activate _ _ | .inactivate _ | .loadp _ _ => true
  | .cmov _ _ _ | .add _ _ _ | .mul _ _ _ | .div _ _ _ | .nand _ _ _ | .halt | .out _ | .inp _ | .lv _ _ => false

/-- R35: the instructions that may change memory. -/
def Instr.changesMemory : Instr → Bool
  | .sstore _ _ _ | .activate _ _ | .inactivate _ | .loadp _ _ => true
  | .sload _ _ _ | .cmov _ _ _ | .add _ _ _ | .mul _ _ _ | .div _ _ _ | .nand _ _ _ | .halt | .out _ | .inp _
  | .lv _ _ => false

/-- R75: the instructions whose result depends on an answer from outside the core. -/
def Instr.asksHost : Instr → Bool
  | .activate _ _ | .inp _ | .loadp _ _ => true
  | .cmov _ _ _ | .sload _ _ _ | .sstore _ _ _ | .add _ _ _ | .mul _ _ _ | .div _ _ _ | .nand _ _ _ | .halt
  | .inactivate _ | .out _ | .lv _ _ => false

end Sys2Proof
end

