-- ==== Sys2Proof/Certificates/Slice0/Obligations.lean ====
section
/-! DEFINITION. The statements for the provers, taken from the numbered rules of spec/. Where a statement rests on a
decision the spec marks as its own (92_eei_decisions.md) or on a choice of this model (notes/assumptions), its docstring
says so. A faulted state is `{ s with run := .faulted k }`, the state from before the step (R95, decision D3). -/

open Sys2Proof Sys2Proof.Machine

/-! ## The codec -/

/-- R65: the two round trips of the codec's field functions, for any opcode 0 to 13 (13 too, C4), and that a packed
three-register word has zeros in bits 27 to 9 (the spec's own canonical form). -/
def Obligations.CodecFieldsRoundTrip : Prop :=
  (∀ (op : Nat) (a b c : RegIndex), op ≤ 13 →
    opcodeOf (encodeThree op a b c) = op ∧ fieldA (encodeThree op a b c) = a ∧
    fieldB (encodeThree op a b c) = b ∧ fieldC (encodeThree op a b c) = c ∧
    (encodeThree op a b c).extractLsb' 9 19 = 0#19) ∧
  (∀ (a : RegIndex) (v : Nat), v < 2 ^ 25 →
    opcodeOf (encodeImmediate a v) = 13 ∧ fieldIA (encodeImmediate a v) = a ∧ fieldIV (encodeImmediate a v) = v)

/-- R61, R65: decoding the word of a well-formed instruction gives that instruction, every operand at every value. -/
def Obligations.DecodeEncodeIsIdentity : Prop :=
  ∀ i : Instr, i.wf = true → decode (encode i) = .instr i

/-- R63: words with opcode 14 or 15 are invalid and executing one raises InvalidOpcode; every other word is an
instruction whatever its other bits hold. -/
def Obligations.OnlyOpcodes14And15AreInvalid : Prop :=
  (∀ w : Word, 14 ≤ opcodeOf w ↔ ∃ op, decode w = .invalid op) ∧
  (∀ w : Word, opcodeOf w ≤ 13 ↔ ∃ i, i.wf = true ∧ decode w = .instr i) ∧
  (∀ (s : State) (w : Word), s.run = .running → s.fetch = .ok w → 14 ≤ opcodeOf w →
    ∃ t, step s = .next t ∧ t.run = .faulted .invalidOpcode)

/-- R58, R59, R61: which instruction and which field values each word with a valid opcode is. The match and mask
values are the opcode table's; the numbering is the spec's own reading (D1, log entry 8). -/
def Obligations.DecodeFollowsOpcodeMap : Prop :=
  ∀ (w : Word) (a b c ia : RegIndex) (iv : Nat),
    a.val = (w.extractLsb' 6 3).toNat → b.val = (w.extractLsb' 3 3).toNat → c.val = (w.extractLsb' 0 3).toNat →
    ia.val = (w.extractLsb' 25 3).toNat → iv = (w.extractLsb' 0 25).toNat →
    (w &&& 0xF0000000#32 = 0x00000000#32 → decode w = .instr (.cmov a b c)) ∧
    (w &&& 0xF0000000#32 = 0x10000000#32 → decode w = .instr (.sload a b c)) ∧
    (w &&& 0xF0000000#32 = 0x20000000#32 → decode w = .instr (.sstore a b c)) ∧
    (w &&& 0xF0000000#32 = 0x30000000#32 → decode w = .instr (.add a b c)) ∧
    (w &&& 0xF0000000#32 = 0x40000000#32 → decode w = .instr (.mul a b c)) ∧
    (w &&& 0xF0000000#32 = 0x50000000#32 → decode w = .instr (.div a b c)) ∧
    (w &&& 0xF0000000#32 = 0x60000000#32 → decode w = .instr (.nand a b c)) ∧
    (w &&& 0xF0000000#32 = 0x70000000#32 → decode w = .instr .halt) ∧
    (w &&& 0xF0000000#32 = 0x80000000#32 → decode w = .instr (.activate b c)) ∧
    (w &&& 0xF0000000#32 = 0x90000000#32 → decode w = .instr (.inactivate c)) ∧
    (w &&& 0xF0000000#32 = 0xA0000000#32 → decode w = .instr (.out c)) ∧
    (w &&& 0xF0000000#32 = 0xB0000000#32 → decode w = .instr (.inp c)) ∧
    (w &&& 0xF0000000#32 = 0xC0000000#32 → decode w = .instr (.loadp b c)) ∧
    (w &&& 0xF0000000#32 = 0xD0000000#32 → decode w = .instr (.lv ia iv))

/-- R62: two words that agree on the bits the first one's instruction reads decode alike. The ignored bits are
decision D11's (log entry 11). -/
def Obligations.IgnoredBitsHaveNoEffect : Prop :=
  ∀ w w' : Word, w &&& readMask (opcodeOf w) = w' &&& readMask (opcodeOf w) → decode w' = decode w

/-- R62, R65: encoding what a word decodes to gives the word back with only its ignored bits cleared (D11, log
entry 11). -/
def Obligations.EncodeOfDecodeKeepsReadBits : Prop :=
  ∀ (w : Word) (i : Instr), decode w = .instr i → i.wf = true ∧ encode i = w &&& readMask (opcodeOf w)

/-- R67: the spec's example encodings (derived there from its own numbering, D1). -/
def Obligations.ExampleWordsDecode : Prop :=
  decode 0x00000053#32 = .instr (.cmov 1 2 3) ∧ decode 0x300000CA#32 = .instr (.add 3 1 2) ∧
  decode 0x70000000#32 = .instr .halt ∧ decode 0x80000011#32 = .instr (.activate 2 1) ∧
  decode 0xA0000003#32 = .instr (.out 3) ∧ decode 0xC0000005#32 = .instr (.loadp 0 5) ∧
  decode 0xD2000042#32 = .instr (.lv 1 66) ∧ decode 0xDFFFFFFF#32 = .instr (.lv 7 0x1FFFFFF) ∧
  decode 0xFFFFFFFF#32 = .invalid 15

/-! ## The step -/

/-- R72: a running engine whose fetched word decodes to an instruction runs that instruction. `exec` itself advances
the program counter (R70), so the step adds nothing around it. -/
def Obligations.StepRunsDecodedInstruction : Prop :=
  ∀ (s : State) (w : Word) (i : Instr), s.run = .running → s.fetch = .ok w → decode w = .instr i → step s = exec i s

/-- R69: the fetch reads the word of segment 0 at `pc` as it stands, and a `pc` at or beyond the length of segment 0
faults. The faulted state is the one from before the step (D3, log entry 7). -/
def Obligations.FetchReadsSegmentZeroOrFaults : Prop :=
  ∀ (s : State) (g : Segment), s.run = .running → s.mem.segment? 0 = some g →
    (s.pc < g.len → s.fetch = .ok (g.word s.pc)) ∧
    (g.len ≤ s.pc → step s = .next { s with run := .faulted .wordIndexOutOfRange })

/-- R25: the engine steps in `Running` and only there; `Halted` and `Faulted(K)` have no successor. -/
def Obligations.StepsExactlyWhileRunning : Prop :=
  ∀ s : State, s.run = .running ↔ ∃ t, step s = .next t

/-- What the model answers where no successor exists: the host's outcome `fault`, which names how the run ended. R25 says
only that there is no successor; the answer is the model's (log entry 6). -/
def Obligations.EndedRunAnswersItsFault : Prop :=
  ∀ s : State, (s.run = .halted → step s = .fault .engineHalted) ∧
    (∀ k, s.run = .faulted k → step s = .fault (.engineFaulted k))

/-- R95, R98: a step that ends in a fault leaves the state from before the step, `pc` included, with the run state
`Faulted(K)` and nothing else changed (the `pc` is decision D3's, log entry 7). -/
def Obligations.FaultingStepHasNoOtherEffect : Prop :=
  ∀ (s t : State) (k : FaultKind), step s = .next t → t.run = .faulted k → t = { s with run := .faulted k }

/-- R97: a fault of a step comes from the fetch (WordIndexOutOfRange), from the decode (InvalidOpcode) or from the
decoded instruction, which raises only the kinds its rule names (ResourceExhausted is the spec's own, D8). -/
def Obligations.FaultsHaveTheirCauses : Prop :=
  ∀ (s t : State) (k : FaultKind), (s.mem.segment? 0).isSome = true → step s = .next t → t.run = .faulted k →
    (s.fetch = .error k ∧ k = .wordIndexOutOfRange) ∨
    (∃ w, s.fetch = .ok w ∧
      ((14 ≤ opcodeOf w ∧ k = .invalidOpcode) ∨ (∃ i, decode w = .instr i ∧ k ∈ i.faultKinds)))

/-! ## Reset and the invariant of the reachable states -/

/-- R18: every register holds 0 before the first fetch, whatever program is loaded. -/
def Obligations.RegistersAreZeroAtReset : Prop :=
  ∀ (ws : List Word) (r : RegIndex), State.reset.readReg r = 0#32 ∧ (State.boot ws).readReg r = 0#32

/-- R33, R36: the reset state for an initial word sequence: `pc` 0 (D2, log entry 1), segment 0 holds exactly the
given words, there is no other slot, the free pool and the output log are empty, the engine runs. With no words it is
`State.reset` (log entry 5). -/
def Obligations.BootStateHoldsTheProgram : Prop :=
  State.boot [] = State.reset ∧
  ∀ ws : List Word,
    (State.boot ws).pc = 0 ∧ (State.boot ws).mem.count = 1 ∧ (State.boot ws).mem.free = [] ∧
    (State.boot ws).run = .running ∧ (State.boot ws).out = [] ∧
    (State.boot ws).mem.progLen = ws.length ∧ (∀ i, (State.boot ws).wordAt 0 i = ws[i]?)

/-- The invariant holds at reset and for every program the loader accepts (R19, R22, R23, R24; the bounds are the
spec's own, D8, D9, log entry 10). -/
def Obligations.BootMeetsInvariant : Prop :=
  State.reset.Inv ∧ ∀ ws : List Word, ws.length ≤ Config.programMax → (State.boot ws).Inv

/-- R19, R22, R23, R24: every step keeps the invariant of the reachable states: canonical segments of length at most
2^32 - 1, handle 0 mapped, at most 2^32 slots, the free pool exactly the unmapped handles and each once, `pc` at most
2^32 - 1 (derived in the spec; the bounds are D8's and D9's, log entry 10). -/
def Obligations.StepKeepsInvariant : Prop :=
  ∀ s t : State, s.Inv → step s = .next t → t.Inv

/-! ## What instructions leave alone -/

/-- R17: ADD and MUL store their result modulo 2^32, and a register is written only by the instructions whose rules
say so, and only their destination. -/
def Obligations.RegistersWrittenOnlyByTheirRules : Prop :=
  (∀ (i : Instr) (s t : State) (r : RegIndex), exec i s = .next t → i.destination ≠ some r →
    t.readReg r = s.readReg r) ∧
  (∀ (a b c : RegIndex) (s t : State), exec (.add a b c) s = .next t →
    t.regNat a = (s.regNat b + s.regNat c) % 2 ^ 32) ∧
  (∀ (a b c : RegIndex) (s t : State), exec (.mul a b c) s = .next t →
    t.regNat a = (s.regNat b * s.regNat c) % 2 ^ 32)

/-- R70: an instruction that completes has advanced `pc` by one, except LOADP, which overwrites it; and in a state of
the invariant the addition stays within 2^32 - 1. -/
def Obligations.OnlyLoadpWritesPc : Prop :=
  (∀ (i : Instr) (s t : State), exec i s = .next t → t.hasFaulted = false → (∀ b c, i ≠ .loadp b c) →
    t.pc = s.pc + 1) ∧
  (∀ (b c : RegIndex) (s t : State), exec (.loadp b c) s = .next t → t.hasFaulted = false → t.pc = s.regNat c) ∧
  (∀ (s : State) (w : Word), s.Inv → s.fetch = .ok w → s.pc + 1 ≤ 2 ^ 32 - 1)

/-- R35: only SSTORE, ACTIVATE, INACTIVATE and LOADP change memory, and beside them only SLOAD reads it: every other
instruction does the same whatever memory holds. -/
def Obligations.MemoryReachedOnlyByItsInstructions : Prop :=
  (∀ (i : Instr) (s t : State), i.changesMemory = false → exec i s = .next t → s.memoryKept t) ∧
  (∀ (i : Instr) (s t : State) (m : Memory), i.reachesMemory = false → exec i s = .next t →
    exec i { s with mem := m } = .next { t with mem := m })

/-- R28: the output log starts empty, only OUT appends to it, and nothing removes from it. -/
def Obligations.OutputLogGrowsOnlyByOut : Prop :=
  State.reset.out = [] ∧
  (∀ (i : Instr) (s t : State), exec i s = .next t →
    t.out = s.out ∨ ∃ c b, i = .out c ∧ b.toNat = s.regNat c ∧ t.out = s.out ++ [b]) ∧
  (∀ s t : State, step s = .next t → s.out <+: t.out)

/-- R21: the segment count changes only when ACTIVATE makes a fresh handle, equal to the old count, and it never
decreases. -/
def Obligations.SegmentCountNeverDecreases : Prop :=
  (∀ (i : Instr) (s t : State), exec i s = .next t →
    t.mem.count = s.mem.count ∨
    (∃ b c, i = .activate b c ∧ s.mem.free = [] ∧ t.mem.count = s.mem.count + 1 ∧ t.regNat b = s.mem.count)) ∧
  (∀ s t : State, step s = .next t → s.mem.count ≤ t.mem.count)

/-- R22: a segment keeps its length while it exists, its words are changed only by SSTORE, a new segment is all zeros,
and segment 0 is the only slot ever replaced as a whole, by LOADP. -/
def Obligations.SegmentsKeepTheirLength : Prop :=
  ∀ (i : Instr) (s t : State), s.Inv → exec i s = .next t →
    (∀ h g g', s.mem.segment? h = some g → t.mem.segment? h = some g' → (h ≠ 0 ∨ ∀ b c, i ≠ .loadp b c) →
      g'.len = g.len ∧ ((∀ a b c, i ≠ .sstore a b c) → g' = g)) ∧
    (∀ h g', s.mem.segment? h = none → t.mem.segment? h = some g' → ∀ j, g'.word j = 0#32)

/-- R23: handle 0 is mapped and not in the free pool before the first fetch, whatever program is loaded, every step
keeps it so, and every fetch reads segment 0. -/
def Obligations.SegmentZeroStaysMapped : Prop :=
  (∀ ws : List Word, ((State.boot ws).mem.segment? 0).isSome = true ∧ 0 ∉ (State.boot ws).mem.free) ∧
  (∀ s t : State, (s.mem.segment? 0).isSome = true → 0 ∉ s.mem.free → step s = .next t →
    (t.mem.segment? 0).isSome = true ∧ 0 ∉ t.mem.free) ∧
  (∀ (s : State) (g : Segment) (w : Word), s.mem.segment? 0 = some g →
    (s.fetch = .ok w ↔ s.pc < g.len ∧ w = g.word s.pc))

/-- R75: an instruction other than ACTIVATE, IN and LOADP does the same whatever the host would answer. The host's
answers are the model's own field (log entries 2, 3). -/
def Obligations.OnlyThreeInstructionsAskTheHost : Prop :=
  ∀ (i : Instr) (s t : State) (x : HostAnswers), i.asksHost = false → exec i s = .next t →
    exec i { s with host := x } = .next { t with host := x }

/-! ## CMOV, SLOAD, SSTORE -/

/-- R77: CMOV always completes: its destination becomes `reg[B]` when `reg[C]` is not 0 and is kept when it is. -/
def Obligations.CmovCompletes : Prop :=
  ∀ (a b c : RegIndex) (s : State), ∃ t, exec (.cmov a b c) s = .next t ∧
    (s.regNat c ≠ 0 → s.writesOnly t a (s.readReg b)) ∧ (s.regNat c = 0 → s.writesOnly t a (s.readReg a))

/-- R78: SLOAD of a word that exists completes with that word in the destination. -/
def Obligations.SloadCompletes : Prop :=
  ∀ (a b c : RegIndex) (s : State) (g : Segment), s.mem.segment? (s.regNat b) = some g → s.regNat c < g.len →
    ∃ t, exec (.sload a b c) s = .next t ∧ s.writesOnly t a (g.word (s.regNat c))

/-- R79: SSTORE to a word that exists completes: that word holds `reg[C]`, every other word, every length, the free
pool, every register, the output log and the host's answers are as before. The canonical form of memory (log entry 13)
is what makes read after write right. -/
def Obligations.SstoreCompletes : Prop :=
  ∀ (a b c : RegIndex) (s : State) (g : Segment), s.mem.wf = true →
    s.mem.segment? (s.regNat a) = some g → s.regNat b < g.len →
    ∃ t, exec (.sstore a b c) s = .next t ∧
      t.wordAt (s.regNat a) (s.regNat b) = some (s.readReg c) ∧
      (∀ h i, ¬ (h = s.regNat a ∧ i = s.regNat b) → t.wordAt h i = s.wordAt h i) ∧
      (∀ h, (t.mem.segment? h).map Segment.len = (s.mem.segment? h).map Segment.len) ∧
      t.mem.count = s.mem.count ∧ t.mem.free = s.mem.free ∧ s.registersKept t ∧
      t.pc = s.pc + 1 ∧ t.run = s.run ∧ t.out = s.out ∧ t.host = s.host

/-- R39, R40, R78, R79: SLOAD and SSTORE of a handle that names no segment fault SegmentOutOfRange, whatever the index;
of an index at or beyond the segment's length, WordIndexOutOfRange (handle first: D7, log entry 9; faulted state: D3,
log entry 7). -/
def Obligations.AccessOutOfRangeFaults : Prop :=
  ∀ (a b c : RegIndex) (s : State),
    (s.mem.segment? (s.regNat b) = none →
      exec (.sload a b c) s = .next { s with run := .faulted .segmentOutOfRange }) ∧
    (∀ g, s.mem.segment? (s.regNat b) = some g → g.len ≤ s.regNat c →
      exec (.sload a b c) s = .next { s with run := .faulted .wordIndexOutOfRange }) ∧
    (s.mem.segment? (s.regNat a) = none →
      exec (.sstore a b c) s = .next { s with run := .faulted .segmentOutOfRange }) ∧
    (∀ g, s.mem.segment? (s.regNat a) = some g → g.len ≤ s.regNat b →
      exec (.sstore a b c) s = .next { s with run := .faulted .wordIndexOutOfRange })

/-! ## ADD, MUL, DIV, NAND -/

/-- R81: ADD always completes with the sum modulo 2^32 in its destination. -/
def Obligations.AddCompletes : Prop :=
  ∀ (a b c : RegIndex) (s : State), ∃ t v, exec (.add a b c) s = .next t ∧
    v.toNat = (s.regNat b + s.regNat c) % 2 ^ 32 ∧ s.writesOnly t a v

/-- R82: MUL always completes with the product modulo 2^32 in its destination. -/
def Obligations.MulCompletes : Prop :=
  ∀ (a b c : RegIndex) (s : State), ∃ t v, exec (.mul a b c) s = .next t ∧
    v.toNat = (s.regNat b * s.regNat c) % 2 ^ 32 ∧ s.writesOnly t a v

/-- R83: DIV by a divisor that is not 0 completes with the unsigned quotient, rounded toward zero. -/
def Obligations.DivCompletes : Prop :=
  ∀ (a b c : RegIndex) (s : State), s.regNat c ≠ 0 → ∃ t v, exec (.div a b c) s = .next t ∧
    v.toNat * s.regNat c ≤ s.regNat b ∧ s.regNat b < (v.toNat + 1) * s.regNat c ∧ s.writesOnly t a v

/-- R83: DIV by 0 faults DivideByZero whatever the dividend, and writes nothing (faulted state: D3, log entry 7). -/
def Obligations.DivByZeroFaults : Prop :=
  ∀ (a b c : RegIndex) (s : State), s.regNat c = 0 →
    exec (.div a b c) s = .next { s with run := .faulted .divideByZero }

/-- R84: NAND always completes: bit by bit, its destination is the complement of the AND of its sources. -/
def Obligations.NandCompletes : Prop :=
  ∀ (a b c : RegIndex) (s : State), ∃ t v, exec (.nand a b c) s = .next t ∧
    (∀ j < 32, v.getLsbD j = !((s.readReg b).getLsbD j && (s.readReg c).getLsbD j)) ∧ s.writesOnly t a v

/-! ## HALT, ACTIVATE, INACTIVATE -/

/-- R85: HALT always completes: the run state is Halted, `pc` keeps the advanced value, nothing else changes. -/
def Obligations.HaltCompletes : Prop :=
  ∀ s : State, ∃ t, exec .halt s = .next t ∧ t.run = .halted ∧ t.pc = s.pc + 1 ∧
    s.registersKept t ∧ s.memoryKept t ∧ t.out = s.out ∧ t.host = s.host

/-- R37, R86: ACTIVATE with a free handle completes with the oldest one, now a zero-filled segment of the size asked
for, whatever the slot held before. Premises: the invariant, and that the host provides the storage (ALLOC_OK, D8, log
entries 2, 14). -/
def Obligations.ActivateReusesOldestHandle : Prop :=
  ∀ (b c : RegIndex) (s : State) (h : Nat) (rest : List Nat), s.Inv → s.mem.free = h :: rest →
    s.advancePc.allocOk (s.regNat c) = true →
    ∃ t g, exec (.activate b c) s = .next t ∧
      t.regNat b = h ∧ (∀ r, r ≠ b → t.readReg r = s.readReg r) ∧
      t.mem.segment? h = some g ∧ g.len = s.regNat c ∧ (∀ j, g.word j = 0#32) ∧
      (∀ h', h' ≠ h → t.mem.segment? h' = s.mem.segment? h') ∧
      (∀ h' j, h' ≠ h → t.wordAt h' j = s.wordAt h' j) ∧
      t.mem.free = rest ∧ t.mem.count = s.mem.count ∧
      t.pc = s.pc + 1 ∧ t.run = s.run ∧ t.out = s.out ∧ t.host = s.host.afterAlloc

/-- R37, R86: ACTIVATE with an empty free pool completes with the fresh handle that equals the segment count, up to
HANDLE_MAX. Premise: the host provides the storage (ALLOC_OK, HANDLE_MAX: D8, log entries 2, 10, 14). -/
def Obligations.ActivateMakesFreshHandle : Prop :=
  ∀ (b c : RegIndex) (s : State), s.mem.free = [] → s.mem.count ≤ Config.handleMax →
    s.advancePc.allocOk (s.regNat c) = true →
    ∃ t g, exec (.activate b c) s = .next t ∧
      t.regNat b = s.mem.count ∧ (∀ r, r ≠ b → t.readReg r = s.readReg r) ∧
      t.mem.segment? s.mem.count = some g ∧ g.len = s.regNat c ∧ (∀ j, g.word j = 0#32) ∧
      (∀ h', h' ≠ s.mem.count → t.mem.segment? h' = s.mem.segment? h') ∧
      (∀ h' j, h' ≠ s.mem.count → t.wordAt h' j = s.wordAt h' j) ∧
      t.mem.free = [] ∧ t.mem.count = s.mem.count + 1 ∧
      t.pc = s.pc + 1 ∧ t.run = s.run ∧ t.out = s.out ∧ t.host = s.host.afterAlloc

/-- R37, R86: ACTIVATE faults ResourceExhausted where the host does not provide the storage, or where no handle is free
and a fresh one would exceed HANDLE_MAX (the spec's own, D8, log entries 2, 10; faulted state: D3, log entry 7). -/
def Obligations.ActivateExhaustionFaults : Prop :=
  ∀ (b c : RegIndex) (s : State),
    (s.advancePc.allocOk (s.regNat c) = false ∨ (s.mem.free = [] ∧ Config.handleMax < s.mem.count)) →
    exec (.activate b c) s = .next { s with run := .faulted .resourceExhausted }

/-- R38, R87: INACTIVATE of a mapped handle other than 0 completes: the slot is unmapped, the handle joins the tail of
the free pool, no register and no other slot changes. -/
def Obligations.InactivateCompletes : Prop :=
  ∀ (c : RegIndex) (s : State) (g : Segment), s.regNat c ≠ 0 → s.mem.segment? (s.regNat c) = some g →
    ∃ t, exec (.inactivate c) s = .next t ∧
      t.mem.segment? (s.regNat c) = none ∧ t.mem.slots[s.regNat c]? = some .unmapped ∧
      (∀ h, h ≠ s.regNat c → t.mem.segment? h = s.mem.segment? h) ∧
      (∀ h j, h ≠ s.regNat c → t.wordAt h j = s.wordAt h j) ∧
      t.mem.free = s.mem.free ++ [s.regNat c] ∧ t.mem.count = s.mem.count ∧ s.registersKept t ∧
      t.pc = s.pc + 1 ∧ t.run = s.run ∧ t.out = s.out ∧ t.host = s.host

/-- R38, R87: INACTIVATE of handle 0 faults InvalidUnmap in every state; of another handle at or beyond the count,
SegmentOutOfRange; of an already free one, InvalidUnmap (kinds: D5, log entry 9; faulted state: D3, log entry 7). -/
def Obligations.InactivateFaults : Prop :=
  ∀ (c : RegIndex) (s : State),
    (s.regNat c = 0 → exec (.inactivate c) s = .next { s with run := .faulted .invalidUnmap }) ∧
    (s.regNat c ≠ 0 → s.mem.count ≤ s.regNat c →
      exec (.inactivate c) s = .next { s with run := .faulted .segmentOutOfRange }) ∧
    (s.regNat c ≠ 0 → s.regNat c < s.mem.count → s.mem.segment? (s.regNat c) = none →
      exec (.inactivate c) s = .next { s with run := .faulted .invalidUnmap })

/-! ## OUT, IN -/

/-- R88: OUT of a value up to 255 completes with that byte appended to the output log, and nothing else changed. -/
def Obligations.OutCompletes : Prop :=
  ∀ (c : RegIndex) (s : State), s.regNat c ≤ 255 → ∃ t b, exec (.out c) s = .next t ∧
    b.toNat = s.regNat c ∧ t.out = s.out ++ [b] ∧
    s.registersKept t ∧ s.memoryKept t ∧ t.pc = s.pc + 1 ∧ t.run = s.run ∧ t.host = s.host

/-- R88: OUT of a value above 255 faults OutputOverflow and emits nothing (faulted state: D3, log entry 7). -/
def Obligations.OutOverflowFaults : Prop :=
  ∀ (c : RegIndex) (s : State), 255 < s.regNat c →
    exec (.out c) s = .next { s with run := .faulted .outputOverflow }

/-- R89: IN always completes, taking exactly one answer: a byte is zero-extended, an end of stream is 0xFFFFFFFF, so the
result is at most 255 or 0xFFFFFFFF. The answer is a free value (INPUT, D10, log entry 3). -/
def Obligations.InCompletes : Prop :=
  ∀ (c : RegIndex) (s : State), ∃ t, exec (.inp c) s = .next t ∧
    (∀ b, s.nextInput = .byte b → t.regNat c = b.toNat) ∧ (s.nextInput = .eos → t.readReg c = 0xFFFFFFFF#32) ∧
    (t.regNat c ≤ 255 ∨ t.regNat c = 0xFFFFFFFF) ∧
    (∀ r, r ≠ c → t.readReg r = s.readReg r) ∧ t.host = s.host.afterInput ∧
    s.memoryKept t ∧ t.pc = s.pc + 1 ∧ t.run = s.run ∧ t.out = s.out

/-! ## LOADP -/

/-- R90: LOADP with handle 0 to a target inside segment 0 completes as a plain jump: only `pc` changes. -/
def Obligations.LoadpJumpCompletes : Prop :=
  ∀ (b c : RegIndex) (s : State) (g : Segment), s.regNat b = 0 → s.mem.segment? 0 = some g → s.regNat c < g.len →
    ∃ t, exec (.loadp b c) s = .next t ∧ t.pc = s.regNat c ∧
      s.registersKept t ∧ s.memoryKept t ∧ t.run = s.run ∧ t.out = s.out ∧ t.host = s.host

/-- R41, R90: LOADP with another mapped handle to a target inside that segment completes: segment 0 becomes a copy of
it, the source and every other slot stay, and the target is the next word fetched. Premise: the host provides the copy's
storage (ALLOC_OK, D8, log entries 2, 14). -/
def Obligations.LoadpReplaceCompletes : Prop :=
  ∀ (b c : RegIndex) (s : State) (g : Segment), s.regNat b ≠ 0 → s.mem.segment? (s.regNat b) = some g →
    (s.setPc (s.regNat c)).allocOk g.len = true → s.regNat c < g.len →
    ∃ t, exec (.loadp b c) s = .next t ∧ t.pc = s.regNat c ∧ t.mem.segment? 0 = some g ∧
      (∀ j, t.wordAt 0 j = s.wordAt (s.regNat b) j) ∧
      (∀ h, h ≠ 0 → t.mem.segment? h = s.mem.segment? h) ∧ (∀ h j, h ≠ 0 → t.wordAt h j = s.wordAt h j) ∧
      t.mem.free = s.mem.free ∧ t.mem.count = s.mem.count ∧ s.registersKept t ∧
      t.run = s.run ∧ t.out = s.out ∧ t.host = s.host.afterAlloc

/-- R41, R90, R98: where LOADP faults: a handle that names no segment (SegmentOutOfRange; an unmapped one below the
count: D6), a copy the host does not provide storage for (ResourceExhausted, D8), a target not below the length of the
segment 0 it would run (ProgramCounterOutOfRange), also with handle 0. Nothing of the jump or the replacement persists
(C1, D3; log entries 7, 9, 14). -/
def Obligations.LoadpFaults : Prop :=
  ∀ (b c : RegIndex) (s : State),
    (s.mem.count ≤ s.regNat b ∨ (s.regNat b ≠ 0 ∧ s.mem.segment? (s.regNat b) = none) →
      exec (.loadp b c) s = .next { s with run := .faulted .segmentOutOfRange }) ∧
    (∀ g, s.regNat b ≠ 0 → s.mem.segment? (s.regNat b) = some g →
      (s.setPc (s.regNat c)).allocOk g.len = false →
      exec (.loadp b c) s = .next { s with run := .faulted .resourceExhausted }) ∧
    (∀ g, s.regNat b ≠ 0 → s.mem.segment? (s.regNat b) = some g →
      (s.setPc (s.regNat c)).allocOk g.len = true → g.len ≤ s.regNat c →
      exec (.loadp b c) s = .next { s with run := .faulted .programCounterOutOfRange }) ∧
    (∀ g, s.regNat b = 0 → s.mem.segment? 0 = some g → g.len ≤ s.regNat c →
      exec (.loadp b c) s = .next { s with run := .faulted .programCounterOutOfRange })

/-! ## LV -/

/-- R93: LV always completes: its destination holds the 25-bit value, bits 31 to 25 zero. The bound is the
instruction's well-formedness (log entry 15). -/
def Obligations.LvCompletes : Prop :=
  ∀ (ia : RegIndex) (iv : Nat) (s : State), (Instr.lv ia iv).wf = true → ∃ t v, exec (.lv ia iv) s = .next t ∧
    v.toNat = iv ∧ v.toNat < 2 ^ 25 ∧ s.writesOnly t ia v

/-! ## Memory across instructions -/

/-- R54: after an SSTORE into segment 0 the next fetch of that index gives the stored word, and a fetch of any other
index what it gave before; an SSTORE over its own word runs as it was fetched. -/
def Obligations.StoredWordIsFetched : Prop :=
  (∀ (a b c : RegIndex) (s t : State), s.mem.wf = true → s.regNat a = 0 → exec (.sstore a b c) s = .next t →
    t.hasFaulted = false →
    (t.setPc (s.regNat b)).fetch = .ok (s.readReg c) ∧
    (∀ i, i ≠ s.regNat b → (t.setPc i).fetch = (s.setPc i).fetch)) ∧
  (∀ (a b c : RegIndex) (s : State) (w : Word), s.run = .running → s.fetch = .ok w →
    decode w = .instr (.sstore a b c) → s.regNat a = 0 → s.regNat b = s.pc →
    step s = exec (.sstore a b c) s)

/-- R55: after a LOADP the next fetch reads the fully new segment 0, which is the segment the handle named (segment 0
itself, unchanged, for handle 0). -/
def Obligations.LoadpIsSeenWholeByTheNextFetch : Prop :=
  ∀ (b c : RegIndex) (s t : State), exec (.loadp b c) s = .next t → t.hasFaulted = false →
    ∃ g, s.mem.segment? (s.regNat b) = some g ∧ t.mem.segment? 0 = some g ∧ t.fetch = .ok (g.word (s.regNat c))

/-- R46: storage is made by ACTIVATE and released exactly by INACTIVATE or at teardown, a write to one slot never changes another, and
segment 0 after a LOADP is a copy that no later store to or unmapping of the source changes. -/
def Obligations.SegmentStorageIsNeverShared : Prop :=
  (∀ (i : Instr) (s t : State) (h : Nat), exec i s = .next t → (s.mem.segment? h).isSome = true →
    t.mem.segment? h = none → ∃ c, i = .inactivate c ∧ s.regNat c = h) ∧
  (∀ (i : Instr) (s t : State) (h : Nat), (s.mem.segment? 0).isSome = true → exec i s = .next t →
    s.mem.segment? h = none → (t.mem.segment? h).isSome = true → ∃ b c, i = .activate b c ∧ t.regNat b = h % 2 ^ 32) ∧
  (∀ (a b c : RegIndex) (s t : State) (h : Nat), exec (.sstore a b c) s = .next t → h ≠ s.regNat a →
    t.mem.segment? h = s.mem.segment? h) ∧
  (∀ (b c : RegIndex) (s t u : State) (j : Instr), exec (.loadp b c) s = .next t → t.hasFaulted = false →
    s.regNat b ≠ 0 →
    ((∃ p q r, j = .sstore p q r ∧ t.regNat p = s.regNat b) ∨ (∃ r, j = .inactivate r ∧ t.regNat r = s.regNat b)) →
    exec j t = .next u → u.mem.segment? 0 = s.mem.segment? (s.regNat b)) ∧
  (∀ (s : State) (h : Nat), s.teardown.mem.segment? h = none)

/-- R44 (derived in the spec): two handles freed in an order, with nothing else in the pool, are returned in that order
by the next two maps. -/
def Obligations.OldestFreedHandleComesBackFirst : Prop :=
  ∀ (c1 c2 b1 d1 b2 d2 : RegIndex) (s s1 s2 s3 s4 : State), s.mem.free = [] →
    exec (.inactivate c1) s = .next s1 → s1.hasFaulted = false →
    exec (.inactivate c2) s1 = .next s2 → s2.hasFaulted = false →
    exec (.activate b1 d1) s2 = .next s3 → s3.hasFaulted = false →
    exec (.activate b2 d2) s3 = .next s4 → s4.hasFaulted = false →
    s3.readReg b1 = s.readReg c1 ∧ s4.readReg b2 = s.readReg c2 ∧ s4.mem.free = []

/-- R44 (derived in the spec): a handle that ACTIVATE returns was not live before, is not 0, is live afterwards and is
no longer in the free pool. -/
def Obligations.MapReturnsNoLiveHandle : Prop :=
  ∀ (b c : RegIndex) (s t : State), s.Inv → exec (.activate b c) s = .next t → t.hasFaulted = false →
    s.mem.segment? (t.regNat b) = none ∧ t.regNat b ≠ 0 ∧ (t.mem.segment? (t.regNat b)).isSome = true ∧
    t.regNat b ∉ t.mem.free

/-- R22 and the model's sparse form of a segment (a DESIGN CHOICE, log entry 13): two canonical segments of one length
that hold the same words are the same data. -/
def Obligations.EqualWordsAreEqualSegments : Prop :=
  ∀ g g' : Segment, g.wf = true → g'.wf = true → g.len = g'.len → (∀ i < g.len, g.word i = g'.word i) → g = g'

/-! ## The host interface -/

/-- R27, R47, R109: the words of a program file are its bytes four at a time, most significant first; a file whose
length is not a multiple of 4 is refused (the refusal is the model's rendering, log entry 18). -/
def Obligations.ProgramFilesAreMostSignificantByteFirst : Prop :=
  (∀ b3 b2 b1 b0 : Byte, (wordOfBytes b3 b2 b1 b0).toNat =
    b3.toNat * 2 ^ 24 + b2.toNat * 2 ^ 16 + b1.toNat * 2 ^ 8 + b0.toNat) ∧
  (∀ ws : List Word, wordsOfFile (ws.flatMap bytesOfWord) = .ok ws) ∧
  (∀ bs : List Byte, bs.length % 4 ≠ 0 → wordsOfFile bs = .error .fileLengthNotMultipleOf4)

/-- R27: a sequence of at most PROGRAM_MAX words is loaded as segment 0 and a longer one is refused (PROGRAM_MAX: D9,
log entry 10). -/
def Obligations.LoaderRefusesOnlyLongPrograms : Prop :=
  ∀ ws : List Word,
    (ws.length ≤ 2 ^ 32 - 1 → loadWords ws = .ok (State.boot ws)) ∧
    (2 ^ 32 - 1 < ws.length → loadWords ws = .error .programTooLong)

/-- R31: the host reads success on Halted and failure with the kind on Faulted(K), and there is no status before the
run has ended. -/
def Obligations.StatusReportsHowTheRunEnded : Prop :=
  ∀ s : State, (s.run = .running ↔ s.status = none) ∧ (s.run = .halted ↔ s.status = some .success) ∧
    (∀ k, s.run = .faulted k ↔ s.status = some (.failure k))

/-- R96: the codes of the fault kinds are 1 to 8, one each (the numbers are the spec's own, D4). -/
def Obligations.FaultCodesAreDistinct : Prop :=
  (∀ k : FaultKind, 1 ≤ k.code ∧ k.code ≤ 8) ∧ (∀ k k' : FaultKind, k.code = k'.code → k = k')

/-- R43: teardown releases all segments and the free pool and changes nothing the host reads, neither the termination
status nor what the run produced. The spec does not make it a step (D18), and no more does the model. -/
def Obligations.TeardownChangesNothingTheHostReads : Prop :=
  ∀ s : State, s.teardown.mem.count = 0 ∧ s.teardown.mem.free = [] ∧ (∀ h i, s.teardown.wordAt h i = none) ∧
    s.teardown.status = s.status ∧ s.teardown.produced = s.produced

/-- R69, R72 and the model's placement of a word (log entry 5): a word placed for the fetch that decodes to an
instruction is the one the very next step runs. -/
def Obligations.PlacedWordRunsNext : Prop :=
  ∀ (s : State) (w : Nat) (i : Instr), s.mem.wf = true → decodeTableWord 32 w = some i →
    step (s.withFetchWord 32 w) = exec i (s.withFetchWord 32 w)
end

