-- ==== Sys2Proof/Laws/Codec.lean ====
section
/-! SUPPORT. The fields of a packed word, and of a field as a number: the lemmas a proof about the codec cites. -/

namespace Sys2Proof

theorem regField_val (w : Word) (lo : Nat) : (regField w lo).val = w.toNat / 2 ^ lo % 8 := by
  simp [regField, Nat.shiftRight_eq_div_pow]

theorem opcodeOf_eq (w : Word) : opcodeOf w = w.toNat / 2 ^ 28 := by
  have := w.isLt
  simp [opcodeOf, BitVec.extractLsb'_toNat, Nat.shiftRight_eq_div_pow]
  omega

theorem fieldIV_eq (w : Word) : fieldIV w = w.toNat % 2 ^ 25 := by
  simp [fieldIV, BitVec.extractLsb'_toNat]

theorem opcodeOf_lt (w : Word) : opcodeOf w < 16 := (w.extractLsb' 28 4).isLt

theorem fieldIV_lt (w : Word) : fieldIV w < 2 ^ 25 := (w.extractLsb' 0 25).isLt

/-- The number a packed three-register word is. -/
theorem encodeThree_toNat (op : Nat) (a b c : RegIndex) (h : op < 16) :
    (encodeThree op a b c).toNat = op * 2 ^ 28 + a.val * 64 + b.val * 8 + c.val := by
  have ha := a.isLt
  have hb := b.isLt
  have hc := c.isLt
  have e1 : op * 2 ^ 28 ||| a.val * 2 ^ 6 = op * 2 ^ 28 + a.val * 2 ^ 6 := by
    have := Nat.two_pow_add_eq_or_of_lt (i := 28) (b := a.val * 2 ^ 6) (by omega) op
    rw [Nat.mul_comm op, this]
  have e2 : (op * 2 ^ 22 + a.val) * 2 ^ 6 ||| b.val * 2 ^ 3 = (op * 2 ^ 22 + a.val) * 2 ^ 6 + b.val * 2 ^ 3 := by
    have := Nat.two_pow_add_eq_or_of_lt (i := 6) (b := b.val * 2 ^ 3) (by omega) (op * 2 ^ 22 + a.val)
    rw [Nat.mul_comm (op * 2 ^ 22 + a.val), this]
  have e3 : (op * 2 ^ 25 + a.val * 2 ^ 3 + b.val) * 2 ^ 3 ||| c.val =
      (op * 2 ^ 25 + a.val * 2 ^ 3 + b.val) * 2 ^ 3 + c.val := by
    have := Nat.two_pow_add_eq_or_of_lt (i := 3) (b := c.val) (by omega) (op * 2 ^ 25 + a.val * 2 ^ 3 + b.val)
    rw [Nat.mul_comm (op * 2 ^ 25 + a.val * 2 ^ 3 + b.val), this]
  simp only [encodeThree, BitVec.toNat_or, BitVec.toNat_shiftLeft, BitVec.toNat_ofNat, Nat.shiftLeft_eq]
  rw [Nat.mod_eq_of_lt (show op % 2 ^ 32 * 2 ^ 28 < 2 ^ 32 by omega), Nat.mod_eq_of_lt (show op < 2 ^ 32 by omega),
    Nat.mod_eq_of_lt (show a.val % 2 ^ 32 * 2 ^ 6 < 2 ^ 32 by omega), Nat.mod_eq_of_lt (show a.val < 2 ^ 32 by omega),
    Nat.mod_eq_of_lt (show b.val % 2 ^ 32 * 2 ^ 3 < 2 ^ 32 by omega), Nat.mod_eq_of_lt (show b.val < 2 ^ 32 by omega),
    Nat.mod_eq_of_lt (show c.val < 2 ^ 32 by omega), e1,
    show op * 2 ^ 28 + a.val * 2 ^ 6 = (op * 2 ^ 22 + a.val) * 2 ^ 6 by omega, e2,
    show (op * 2 ^ 22 + a.val) * 2 ^ 6 + b.val * 2 ^ 3 = (op * 2 ^ 25 + a.val * 2 ^ 3 + b.val) * 2 ^ 3 by omega, e3]
  omega

/-- The number a packed immediate word is. -/
theorem encodeImmediate_toNat (ia : RegIndex) (iv : Nat) (h : iv < 2 ^ 25) :
    (encodeImmediate ia iv).toNat = 13 * 2 ^ 28 + ia.val * 2 ^ 25 + iv := by
  have ha := ia.isLt
  have e1 : 13 * 2 ^ 28 ||| ia.val * 2 ^ 25 = 13 * 2 ^ 28 + ia.val * 2 ^ 25 := by
    have := Nat.two_pow_add_eq_or_of_lt (i := 28) (b := ia.val * 2 ^ 25) (by omega) 13
    rw [Nat.mul_comm 13, this]
  have e2 : (13 * 2 ^ 3 + ia.val) * 2 ^ 25 ||| iv = (13 * 2 ^ 3 + ia.val) * 2 ^ 25 + iv := by
    have := Nat.two_pow_add_eq_or_of_lt (i := 25) (b := iv) h (13 * 2 ^ 3 + ia.val)
    rw [Nat.mul_comm (13 * 2 ^ 3 + ia.val), this]
  simp only [encodeImmediate, BitVec.toNat_or, BitVec.toNat_shiftLeft, BitVec.toNat_ofNat, Nat.shiftLeft_eq]
  rw [Nat.mod_eq_of_lt (show 13 % 2 ^ 32 * 2 ^ 28 < 2 ^ 32 by omega), Nat.mod_eq_of_lt (show 13 < 2 ^ 32 by omega),
    Nat.mod_eq_of_lt (show ia.val % 2 ^ 32 * 2 ^ 25 < 2 ^ 32 by omega),
    Nat.mod_eq_of_lt (show ia.val < 2 ^ 32 by omega), Nat.mod_eq_of_lt (show iv < 2 ^ 32 by omega), e1,
    show 13 * 2 ^ 28 + ia.val * 2 ^ 25 = (13 * 2 ^ 3 + ia.val) * 2 ^ 25 by omega, e2]

theorem opcodeOf_encodeThree (op : Nat) (a b c : RegIndex) (h : op < 16) : opcodeOf (encodeThree op a b c) = op := by
  have ha := a.isLt
  have hb := b.isLt
  have hc := c.isLt
  rw [opcodeOf_eq, encodeThree_toNat op a b c h]
  omega

theorem opcodeOf_encodeImmediate (ia : RegIndex) (iv : Nat) (h : iv < 2 ^ 25) :
    opcodeOf (encodeImmediate ia iv) = 13 := by
  have ha := ia.isLt
  rw [opcodeOf_eq, encodeImmediate_toNat ia iv h]
  omega

end Sys2Proof
end

