-- ==== Sys2Proof/Laws/State.lean ====
section
/-! SUPPORT. One lemma per field of State per named update, true by rfl: later proofs unfold no record update. -/

namespace Sys2Proof.Machine

variable (s : State) (i : RegIndex) (v : Word) (n : Nat) (b : Byte) (k : FaultKind)

/-! ## writeReg -/

@[simp] theorem State.writeReg_regs : (s.writeReg i v).regs = s.regs.set i.val v := rfl
@[simp] theorem State.writeReg_pc : (s.writeReg i v).pc = s.pc := rfl
@[simp] theorem State.writeReg_mem : (s.writeReg i v).mem = s.mem := rfl
@[simp] theorem State.writeReg_run : (s.writeReg i v).run = s.run := rfl
@[simp] theorem State.writeReg_out : (s.writeReg i v).out = s.out := rfl
@[simp] theorem State.writeReg_host : (s.writeReg i v).host = s.host := rfl

/-! ## setPc -/

@[simp] theorem State.setPc_pc : (s.setPc n).pc = n := rfl
@[simp] theorem State.setPc_regs : (s.setPc n).regs = s.regs := rfl
@[simp] theorem State.setPc_mem : (s.setPc n).mem = s.mem := rfl
@[simp] theorem State.setPc_run : (s.setPc n).run = s.run := rfl
@[simp] theorem State.setPc_out : (s.setPc n).out = s.out := rfl
@[simp] theorem State.setPc_host : (s.setPc n).host = s.host := rfl

/-! ## advancePc -/

@[simp] theorem State.advancePc_pc : (s.advancePc).pc = s.pc + 1 := rfl
@[simp] theorem State.advancePc_regs : (s.advancePc).regs = s.regs := rfl
@[simp] theorem State.advancePc_mem : (s.advancePc).mem = s.mem := rfl
@[simp] theorem State.advancePc_run : (s.advancePc).run = s.run := rfl
@[simp] theorem State.advancePc_out : (s.advancePc).out = s.out := rfl
@[simp] theorem State.advancePc_host : (s.advancePc).host = s.host := rfl

/-! ## emit -/

@[simp] theorem State.emit_out : (s.emit b).out = s.out ++ [b] := rfl
@[simp] theorem State.emit_regs : (s.emit b).regs = s.regs := rfl
@[simp] theorem State.emit_pc : (s.emit b).pc = s.pc := rfl
@[simp] theorem State.emit_mem : (s.emit b).mem = s.mem := rfl
@[simp] theorem State.emit_run : (s.emit b).run = s.run := rfl
@[simp] theorem State.emit_host : (s.emit b).host = s.host := rfl

/-! ## drawInput -/

@[simp] theorem State.drawInput_host : (s.drawInput).host = s.host.afterInput := rfl
@[simp] theorem State.drawInput_regs : (s.drawInput).regs = s.regs := rfl
@[simp] theorem State.drawInput_pc : (s.drawInput).pc = s.pc := rfl
@[simp] theorem State.drawInput_mem : (s.drawInput).mem = s.mem := rfl
@[simp] theorem State.drawInput_run : (s.drawInput).run = s.run := rfl
@[simp] theorem State.drawInput_out : (s.drawInput).out = s.out := rfl

/-! ## enterFault -/

@[simp] theorem State.enterFault_run : (s.enterFault k).run = .faulted k := rfl
@[simp] theorem State.enterFault_regs : (s.enterFault k).regs = s.regs := rfl
@[simp] theorem State.enterFault_pc : (s.enterFault k).pc = s.pc := rfl
@[simp] theorem State.enterFault_mem : (s.enterFault k).mem = s.mem := rfl
@[simp] theorem State.enterFault_out : (s.enterFault k).out = s.out := rfl
@[simp] theorem State.enterFault_host : (s.enterFault k).host = s.host := rfl

/-! ## Reading a register -/

theorem State.readReg_writeReg (r : RegIndex) :
    (s.writeReg i v).readReg r = if r = i then v else s.readReg r := by
  by_cases h : r = i
  · subst h
    simp [State.readReg, State.writeReg]
  · have : i.val ≠ r.val := fun e => h (Fin.ext e.symm)
    simp [State.readReg, State.writeReg, this, h]

@[simp] theorem State.readReg_writeReg_same : (s.writeReg i v).readReg i = v := by
  simp [State.readReg_writeReg]

@[simp] theorem State.readReg_setPc (r : RegIndex) : (s.setPc n).readReg r = s.readReg r := rfl
@[simp] theorem State.readReg_advancePc (r : RegIndex) : s.advancePc.readReg r = s.readReg r := rfl
@[simp] theorem State.readReg_emit (r : RegIndex) : (s.emit b).readReg r = s.readReg r := rfl
@[simp] theorem State.readReg_drawInput (r : RegIndex) : s.drawInput.readReg r = s.readReg r := rfl
@[simp] theorem State.readReg_enterFault (r : RegIndex) : (s.enterFault k).readReg r = s.readReg r := rfl

@[simp] theorem State.regNat_setPc (r : RegIndex) : (s.setPc n).regNat r = s.regNat r := rfl
@[simp] theorem State.regNat_advancePc (r : RegIndex) : s.advancePc.regNat r = s.regNat r := rfl

theorem State.regNat_lt (r : RegIndex) : s.regNat r < 2 ^ 32 := (s.readReg r).isLt

theorem State.regNat_eq_zero_iff (r : RegIndex) : s.regNat r = 0 ↔ s.readReg r = 0#32 := by
  simp [State.regNat, BitVec.toNat_eq]

/-! ## The operands of one instruction, read after the advance -/

@[simp] theorem State.segAddr_advancePc (r q : RegIndex) : s.advancePc.segAddr r q = s.segAddr r q := rfl
@[simp] theorem State.segAddr_handle (r q : RegIndex) : (s.segAddr r q).handle = s.regNat r := rfl
@[simp] theorem State.segAddr_index (r q : RegIndex) : (s.segAddr r q).index = s.regNat q := rfl
@[simp] theorem State.nextInput_advancePc : s.advancePc.nextInput = s.nextInput := rfl

/-! ## The host's answers -/

@[simp] theorem HostAnswers.afterAlloc_inputScript (x : HostAnswers) : x.afterAlloc.inputScript = x.inputScript := rfl
@[simp] theorem HostAnswers.afterAlloc_inputDraws (x : HostAnswers) : x.afterAlloc.inputDraws = x.inputDraws := rfl
@[simp] theorem HostAnswers.afterInput_allocScript (x : HostAnswers) : x.afterInput.allocScript = x.allocScript := rfl
@[simp] theorem HostAnswers.afterInput_allocDraws (x : HostAnswers) : x.afterInput.allocDraws = x.allocDraws := rfl

/-- Equal registers, field by field, make equal register files. -/
theorem State.regs_ext (s t : State) (h : ∀ r, t.readReg r = s.readReg r) : t.regs = s.regs := by
  apply Vector.ext
  intro j hj
  exact h ⟨j, hj⟩

end Sys2Proof.Machine
end

