-- ==== Sys2Proof/Laws/Memory.lean ====
section
/-! SUPPORT. The laws of the words of a segment and of the Segment Table: read after write, the canonical form and
that every memory operation keeps it, and that equal contents are equal data. -/

namespace Sys2Proof.Machine

/-! ## Words -/

theorem cellsGet_below (cells : List (Nat × Word)) (lo hi i : Nat) (h : cellsCanonical lo hi cells = true)
    (hi' : i < lo) : cellsGet cells i = 0#32 := by
  induction cells generalizing lo with
  | nil => rfl
  | cons head rest ih =>
    obtain ⟨j, w⟩ := head
    simp only [cellsCanonical, Bool.and_eq_true, decide_eq_true_eq] at h
    have hne : i ≠ j := by omega
    simp only [cellsGet, hne, if_false]
    exact ih (j + 1) h.2 (by omega)

theorem cellsCanonical_weaken (cells : List (Nat × Word)) (lo lo' hi hi' : Nat) (hlo : lo' ≤ lo) (hhi : hi ≤ hi')
    (h : cellsCanonical lo hi cells = true) : cellsCanonical lo' hi' cells = true := by
  induction cells generalizing lo lo' with
  | nil => rfl
  | cons head rest ih =>
    obtain ⟨j, w⟩ := head
    simp only [cellsCanonical, Bool.and_eq_true, decide_eq_true_eq] at h ⊢
    exact ⟨⟨⟨by omega, by omega⟩, h.1.2⟩, ih (j + 1) (j + 1) (le_refl _) h.2⟩

/-- Read after write. The canonical form is what makes the removal of a written 0 right. -/
theorem cellsGet_cellsPut (cells : List (Nat × Word)) (lo hi i j : Nat) (v : Word)
    (h : cellsCanonical lo hi cells = true) :
    cellsGet (cellsPut cells i v) j = if j = i then v else cellsGet cells j := by
  induction cells generalizing lo with
  | nil => by_cases hv : v = 0#32 <;> by_cases hj : j = i <;> simp [cellsPut, cellsGet, hv, hj]
  | cons head rest ih =>
    obtain ⟨k, w⟩ := head
    simp only [cellsCanonical, Bool.and_eq_true, decide_eq_true_eq] at h
    have below := fun (hk : j < k + 1) => cellsGet_below rest (k + 1) hi j h.2 hk
    have step := ih (k + 1) h.2
    rcases Nat.lt_trichotomy i k with lt | eq | gt
    · by_cases hv : v = 0#32 <;> by_cases hj : j = i
      · have hk : j ≠ k := by omega
        simp [cellsPut, cellsGet, lt, hv, hk, below (by omega)]
      all_goals simp [cellsPut, cellsGet, lt, hv, hj]
    · subst eq
      by_cases hv : v = 0#32 <;> by_cases hj : j = i
      · simp [cellsPut, hv, hj ▸ below (by omega), hj]
      all_goals simp [cellsPut, cellsGet, hv, hj]
    · have h1 : ¬ i < k := by omega
      have h2 : i ≠ k := by omega
      by_cases hk : j = k
      · have hj : j ≠ i := by omega
        simp [cellsPut, cellsGet, h1, h2, hk, Ne.symm h2]
      · simp [cellsPut, cellsGet, h1, h2, hk, step]

theorem cellsCanonical_cellsPut (cells : List (Nat × Word)) (lo hi i : Nat) (v : Word)
    (h : cellsCanonical lo hi cells = true) (hlo : lo ≤ i) (hhi : i < hi) :
    cellsCanonical lo hi (cellsPut cells i v) = true := by
  induction cells generalizing lo with
  | nil => by_cases hv : v = 0#32 <;> simp [cellsPut, cellsCanonical, hv, hlo, hhi]
  | cons head rest ih =>
    obtain ⟨k, w⟩ := head
    simp only [cellsCanonical, Bool.and_eq_true, decide_eq_true_eq] at h
    obtain ⟨⟨⟨h1, h2⟩, h3⟩, h4⟩ := h
    unfold cellsPut
    split_ifs with c1 c2 c3 c4
    · simp [cellsCanonical, *]
    · simp [cellsCanonical, *]
    · exact cellsCanonical_weaken rest (k + 1) lo hi hi (by omega) (le_refl _) h4
    · simp [cellsCanonical, *]
    · simp [cellsCanonical, *]
      exact ih (k + 1) h4 (by omega)

theorem cellsCanonical_cellsOfWords (ws : List Word) (lo : Nat) :
    cellsCanonical lo (lo + ws.length) (cellsOfWords lo ws) = true := by
  induction ws generalizing lo with
  | nil => rfl
  | cons w rest ih =>
    have step := ih (lo + 1)
    rw [show lo + 1 + rest.length = lo + (w :: rest).length from by simp; omega] at step
    unfold cellsOfWords
    split_ifs with hw
    · exact cellsCanonical_weaken _ (lo + 1) lo _ _ (by omega) (le_refl _) step
    · simp only [cellsCanonical, Bool.and_eq_true, decide_eq_true_eq]
      exact ⟨⟨⟨le_refl _, by simp⟩, hw⟩, step⟩

/-- The cells of laid-out words read back those words. -/
theorem cellsGet_cellsOfWords (ws : List Word) (lo j : Nat) :
    cellsGet (cellsOfWords lo ws) (lo + j) = ws.getD j 0#32 := by
  induction ws generalizing lo j with
  | nil => rfl
  | cons w rest ih =>
    have below := cellsGet_below _ (lo + 1) _ lo (cellsCanonical_cellsOfWords rest (lo + 1)) (by omega)
    unfold cellsOfWords
    cases j with
    | zero => split_ifs with hw <;> simp [cellsGet, hw, below]
    | succ j =>
      have step := ih (lo + 1) j
      rw [show lo + 1 + j = lo + (j + 1) from by omega] at step
      split_ifs with hw <;> simp [cellsGet, step]

/-- Two canonical lists that read the same everywhere are the same list. -/
theorem cells_ext (xs ys : List (Nat × Word)) (lo hi : Nat) (hx : cellsCanonical lo hi xs = true)
    (hy : cellsCanonical lo hi ys = true) (h : ∀ i, cellsGet xs i = cellsGet ys i) : xs = ys := by
  induction xs generalizing lo ys with
  | nil =>
    cases ys with
    | nil => rfl
    | cons head rest =>
      obtain ⟨k, w⟩ := head
      simp only [cellsCanonical, Bool.and_eq_true, decide_eq_true_eq] at hy
      have := h k
      simp [cellsGet] at this
      exact absurd this.symm hy.1.2
  | cons head rest ih =>
    obtain ⟨j, v⟩ := head
    simp only [cellsCanonical, Bool.and_eq_true, decide_eq_true_eq] at hx
    cases ys with
    | nil =>
      have := h j
      simp [cellsGet] at this
      exact absurd this hx.1.2
    | cons head' rest' =>
      obtain ⟨k, w⟩ := head'
      simp only [cellsCanonical, Bool.and_eq_true, decide_eq_true_eq] at hy
      have belowX := fun i hi => cellsGet_below rest (j + 1) _ i hx.2 hi
      have belowY := fun i hi => cellsGet_below rest' (k + 1) _ i hy.2 hi
      have hjk : j = k := by
        rcases Nat.lt_trichotomy j k with lt | eq | gt
        · have := h j
          simp [cellsGet, Nat.ne_of_lt lt, belowY j (by omega)] at this
          exact absurd this hx.1.2
        · exact eq
        · have := h k
          simp [cellsGet, Nat.ne_of_lt gt, belowX k (by omega)] at this
          exact absurd this.symm hy.1.2
      subst hjk
      have hvw : v = w := by simpa [cellsGet] using h j
      subst hvw
      congr 1
      apply ih rest' (j + 1) hx.2 hy.2
      intro i
      by_cases hi : i = j
      · rw [hi, belowX j (by omega), belowY j (by omega)]
      · simpa [cellsGet, hi] using h i

/-! ## Segments -/

@[simp] theorem Segment.setWord_len (g : Segment) (i : Nat) (v : Word) : (g.setWord i v).len = g.len := rfl
@[simp] theorem Segment.zeros_len (n : Nat) : (Segment.zeros n).len = n := rfl
@[simp] theorem Segment.zeros_word (n i : Nat) : (Segment.zeros n).word i = 0#32 := rfl
@[simp] theorem Segment.ofWords_len (ws : List Word) : (Segment.ofWords ws).len = ws.length := rfl

theorem Segment.wf_iff (g : Segment) :
    g.wf = true ↔ g.len ≤ Config.segmentMax ∧ cellsCanonical 0 g.len g.cells = true := by
  simp [Segment.wf]

theorem Segment.word_setWord (g : Segment) (i j : Nat) (v : Word) (h : g.wf = true) :
    (g.setWord i v).word j = if j = i then v else g.word j :=
  cellsGet_cellsPut g.cells 0 g.len i j v ((Segment.wf_iff g).1 h).2

theorem Segment.setWord_wf (g : Segment) (i : Nat) (v : Word) (h : g.wf = true) (hi : i < g.len) :
    (g.setWord i v).wf = true := by
  rw [Segment.wf_iff] at h ⊢
  exact ⟨h.1, cellsCanonical_cellsPut g.cells 0 g.len i v h.2 (Nat.zero_le _) hi⟩

theorem Segment.zeros_wf (n : Nat) (h : n ≤ Config.segmentMax) : (Segment.zeros n).wf = true :=
  (Segment.wf_iff _).2 ⟨h, rfl⟩

theorem Segment.ofWords_wf (ws : List Word) (h : ws.length ≤ Config.segmentMax) :
    (Segment.ofWords ws).wf = true := by
  have := cellsCanonical_cellsOfWords ws 0
  rw [Nat.zero_add] at this
  exact (Segment.wf_iff _).2 ⟨h, this⟩

theorem Segment.ofWords_word (ws : List Word) (i : Nat) : (Segment.ofWords ws).word i = ws.getD i 0#32 := by
  simpa [Segment.word, Segment.ofWords] using cellsGet_cellsOfWords ws 0 i

/-! ## Slots -/

theorem Memory.segment?_eq_some (m : Memory) (h : Nat) (g : Segment) :
    m.segment? h = some g ↔ m.slots[h]? = some (.mapped g) := by
  unfold Memory.segment?
  split
  · rename_i g' e
    simp [e]
  · rename_i e
    simp only [reduceCtorEq, false_iff]
    exact e g

theorem Memory.lt_count_of_segment? (m : Memory) (h : Nat) (g : Segment) (e : m.segment? h = some g) :
    h < m.count := by
  rw [Memory.segment?_eq_some] at e
  exact (List.getElem?_eq_some_iff.1 e).1

theorem Memory.segment?_set (slots : List Slot) (free : List Nat) (h h' : Nat) (x : Slot) :
    (Memory.mk (slots.set h x) free).segment? h' =
      if h' = h ∧ h < slots.length then
        (match x with | .mapped g => some g | .unmapped => none)
      else (Memory.mk slots free).segment? h' := by
  unfold Memory.segment?
  simp only [List.getElem?_set]
  by_cases e : h = h'
  · subst e
    by_cases lt : h < slots.length
    · cases x <;> simp [lt]
    · have : slots[h]? = none := List.getElem?_eq_none (by omega)
      simp [lt]
  · simp [e, Ne.symm e]

theorem Memory.segment?_append (slots : List Slot) (free : List Nat) (h' : Nat) (x : Slot) :
    (Memory.mk (slots ++ [x]) free).segment? h' =
      if h' = slots.length then (match x with | .mapped g => some g | .unmapped => none)
      else (Memory.mk slots free).segment? h' := by
  unfold Memory.segment?
  rcases Nat.lt_trichotomy h' slots.length with lt | eq | gt
  · simp [List.getElem?_append_left lt, Nat.ne_of_lt lt]
  · subst eq
    cases x <;> simp
  · have e1 : (slots ++ [x])[h']? = none := List.getElem?_eq_none (by simp; omega)
    have e2 : slots[h']? = none := List.getElem?_eq_none (by omega)
    simp [e1, e2, Nat.ne_of_gt gt]

/-- The free pool plays no part in what a handle names. -/
theorem Memory.segment?_free (slots : List Slot) (free free' : List Nat) (h : Nat) :
    (Memory.mk slots free).segment? h = (Memory.mk slots free').segment? h := rfl

@[simp] theorem Memory.setSlot_free (m : Memory) (h : Nat) (x : Slot) : (m.setSlot h x).free = m.free := rfl
@[simp] theorem Memory.setSlot_slots (m : Memory) (h : Nat) (x : Slot) : (m.setSlot h x).slots = m.slots.set h x := rfl
@[simp] theorem Memory.setSlot_count (m : Memory) (h : Nat) (x : Slot) : (m.setSlot h x).count = m.count := by
  simp [Memory.count]

theorem Memory.wf_iff (m : Memory) : m.wf = true ↔ ∀ h g, m.segment? h = some g → g.wf = true := by
  simp only [Memory.wf, List.all_eq_true, Memory.segment?_eq_some]
  constructor
  · intro all h g e
    exact all _ (List.mem_of_getElem? e)
  · intro all x hx
    cases x with
    | unmapped => rfl
    | mapped g =>
      obtain ⟨h, e⟩ := List.getElem?_of_mem hx
      exact all h g e

theorem Memory.segment_wf (m : Memory) (h : Nat) (g : Segment) (wf : m.wf = true) (e : m.segment? h = some g) :
    g.wf = true := (Memory.wf_iff m).1 wf h g e

/-! ## Every memory operation keeps the canonical form -/

theorem Memory.wf_set (slots : List Slot) (free free' : List Nat) (h : Nat) (x : Slot)
    (wf : (Memory.mk slots free).wf = true) (hx : x.wf = true) : (Memory.mk (slots.set h x) free').wf = true := by
  simp only [Memory.wf, List.all_eq_true] at wf ⊢
  intro y hy
  rcases List.mem_or_eq_of_mem_set hy with hm | he
  · exact wf y hm
  · exact he ▸ hx

theorem Memory.wf_append (slots : List Slot) (free free' : List Nat) (x : Slot)
    (wf : (Memory.mk slots free).wf = true) (hx : x.wf = true) : (Memory.mk (slots ++ [x]) free').wf = true := by
  simp only [Memory.wf, List.all_eq_true, List.mem_append, List.mem_singleton] at wf ⊢
  rintro y (hm | he)
  · exact wf y hm
  · exact he ▸ hx

theorem Memory.ofProgram_wf (ws : List Word) (h : ws.length ≤ Config.programMax) : (Memory.ofProgram ws).wf = true := by
  simp [Memory.ofProgram, Memory.wf, Slot.wf, Segment.ofWords_wf ws h]

theorem State.reset_mem_wf : State.reset.mem.wf = true := rfl

end Sys2Proof.Machine
end

