-- ==== Sys2Proof/Laws/SegmentManager.lean ====
section
/-! SUPPORT. For each Segment Manager operation, one lemma that says everything it can answer, and that it keeps the
memory's canonical form; for one instruction, what its outcome can be. Later proofs cite these and unfold nothing. -/

namespace Sys2Proof.Machine

variable (s t : State) (h i n : Nat) (v : Word) (k : FaultKind)

theorem except_error_eq {α : Type} (k k' : FaultKind) : (Except.error k' : Except FaultKind α) = .error k ↔ k = k' := by
  simp [eq_comm]

theorem except_ok_eq {α : Type} (x y : α) : (Except.ok x : Except FaultKind α) = .ok y ↔ y = x := by
  simp [eq_comm]

theorem Memory.segment?_eq_none_of_le (m : Memory) (h : Nat) (le : m.count ≤ h) : m.segment? h = none := by
  cases e : m.segment? h with
  | none => rfl
  | some g => exact absurd (Memory.lt_count_of_segment? m h g e) (by omega)

/-! ## SegRead (R39) -/

theorem State.segRead_ok_iff :
    s.segRead h i = .ok v ↔ ∃ g, s.mem.segment? h = some g ∧ i < g.len ∧ g.word i = v := by
  unfold State.segRead
  cases s.mem.segment? h with
  | none => simp
  | some g => by_cases lt : i < g.len <;> simp [lt]

theorem State.segRead_error_iff :
    s.segRead h i = .error k ↔
      (s.mem.segment? h = none ∧ k = .segmentOutOfRange) ∨
      (∃ g, s.mem.segment? h = some g ∧ g.len ≤ i ∧ k = .wordIndexOutOfRange) := by
  unfold State.segRead
  cases s.mem.segment? h with
  | none => simp [eq_comm]
  | some g =>
    by_cases lt : i < g.len <;> simp [lt, eq_comm]
    omega

theorem State.wordAt_eq :
    s.wordAt h i = (match s.mem.segment? h with
      | some g => if i < g.len then some (g.word i) else none
      | none => none) := by
  unfold State.wordAt State.segRead
  cases s.mem.segment? h with
  | none => rfl
  | some g => by_cases lt : i < g.len <;> simp [lt]

/-- A read depends on the memory alone. -/
theorem State.segRead_congr (e : t.mem = s.mem) : t.segRead h i = s.segRead h i := by
  simp [State.segRead, e]

theorem State.wordAt_congr (e : t.mem = s.mem) : t.wordAt h i = s.wordAt h i := by
  simp [State.wordAt, State.segRead_congr s t h i e]

theorem State.memoryKept_of_eq (e : t.mem = s.mem) : s.memoryKept t :=
  ⟨e, fun h i => State.wordAt_congr s t h i e⟩

/-! ## SegWrite (R40) -/

theorem State.segWrite_ok_iff :
    s.segWrite h i v = .ok t ↔ ∃ g, s.mem.segment? h = some g ∧ i < g.len ∧
      t = { s with mem := s.mem.setSlot h (.mapped (g.setWord i v)) } := by
  unfold State.segWrite
  cases s.mem.segment? h with
  | none => simp
  | some g => by_cases lt : i < g.len <;> simp [lt, eq_comm]

theorem State.segWrite_error_iff :
    s.segWrite h i v = .error k ↔
      (s.mem.segment? h = none ∧ k = .segmentOutOfRange) ∨
      (∃ g, s.mem.segment? h = some g ∧ g.len ≤ i ∧ k = .wordIndexOutOfRange) := by
  unfold State.segWrite
  cases s.mem.segment? h with
  | none => simp [eq_comm]
  | some g =>
    by_cases lt : i < g.len <;> simp [lt, eq_comm]
    omega

/-- What a write does to the table: slot `h` holds the changed segment, every other slot is as before. -/
theorem State.segment?_setSlot_mapped (m : Memory) (g g' : Segment) (h' : Nat) (e : m.segment? h = some g) :
    (m.setSlot h (.mapped g')).segment? h' = if h' = h then some g' else m.segment? h' := by
  have lt := Memory.lt_count_of_segment? m h g e
  have := Memory.segment?_set m.slots m.free h h' (.mapped g')
  simp only [Memory.setSlot, this]
  simp [show h < m.slots.length from lt]

theorem State.segWrite_wf (wf : s.mem.wf = true) (e : s.segWrite h i v = .ok t) : t.mem.wf = true := by
  obtain ⟨g, hg, lt, rfl⟩ := (State.segWrite_ok_iff s t h i v).1 e
  exact Memory.wf_set _ s.mem.free _ _ _ wf (Segment.setWord_wf g i v (Memory.segment_wf _ h g wf hg) lt)

/-! ## SegMap (R37) -/

theorem State.segMap_ok_iff :
    s.segMap n = .ok (h, t) ↔ s.allocOk n = true ∧
      ((∃ rest, s.mem.free = h :: rest ∧
          t = { s with mem := { slots := s.mem.slots.set h (.mapped (Segment.zeros n)), free := rest }
                       host := s.host.afterAlloc }) ∨
       (s.mem.free = [] ∧ h = s.mem.count ∧ s.mem.count ≤ Config.handleMax ∧
          t = { s with mem := { slots := s.mem.slots ++ [.mapped (Segment.zeros n)], free := [] }
                       host := s.host.afterAlloc })) := by
  unfold State.segMap
  cases ok : s.allocOk n with
  | false => simp
  | true =>
    cases fr : s.mem.free with
    | nil => by_cases le : s.mem.count ≤ Config.handleMax <;> simp [-Except.ok.injEq, -Except.error.injEq, le, except_ok_eq]
    | cons x rest =>
      simp only [if_true, except_ok_eq, Prod.mk.injEq, List.cons.injEq, true_and, reduceCtorEq, false_and, or_false]
      constructor
      · rintro ⟨rfl, rfl⟩
        exact ⟨rest, ⟨rfl, rfl⟩, rfl⟩
      · rintro ⟨rest', ⟨rfl, rfl⟩, rfl⟩
        exact ⟨rfl, rfl⟩

theorem State.segMap_error_iff :
    s.segMap n = .error k ↔ k = .resourceExhausted ∧
      (s.allocOk n = false ∨ (s.mem.free = [] ∧ Config.handleMax < s.mem.count)) := by
  unfold State.segMap
  cases ok : s.allocOk n with
  | false => simp [eq_comm]
  | true =>
    cases fr : s.mem.free with
    | nil => by_cases le : s.mem.count ≤ Config.handleMax <;> simp [le, eq_comm]; omega
    | cons x rest => simp

theorem State.segMap_wf (wf : s.mem.wf = true) (hn : n ≤ Config.segmentMax) (e : s.segMap n = .ok (h, t)) :
    t.mem.wf = true := by
  obtain ⟨-, ⟨rest, -, rfl⟩ | ⟨-, -, -, rfl⟩⟩ := (State.segMap_ok_iff s t h n).1 e
  · exact Memory.wf_set _ s.mem.free _ _ _ wf (Segment.zeros_wf n hn)
  · exact Memory.wf_append _ s.mem.free _ _ wf (Segment.zeros_wf n hn)

/-! ## SegUnmap (R38) -/

theorem State.segUnmap_ok_iff :
    s.segUnmap h = .ok t ↔ h ≠ 0 ∧ (∃ g, s.mem.segment? h = some g) ∧
      t = { s with mem := { slots := s.mem.slots.set h .unmapped, free := s.mem.free ++ [h] } } := by
  unfold State.segUnmap
  by_cases le : s.mem.count ≤ h
  · simp [le, Memory.segment?_eq_none_of_le _ h le]
  · rw [if_neg le]
    by_cases zero : h = 0
    · simp [zero]
    · rw [if_neg zero]
      cases s.mem.segment? h <;> simp [-Except.ok.injEq, -Except.error.injEq, zero, except_ok_eq]

theorem State.segUnmap_error_iff :
    s.segUnmap h = .error k ↔
      (s.mem.count ≤ h ∧ k = .segmentOutOfRange) ∨
      (h < s.mem.count ∧ (h = 0 ∨ s.mem.segment? h = none) ∧ k = .invalidUnmap) := by
  unfold State.segUnmap
  by_cases le : s.mem.count ≤ h
  · simp [-Except.ok.injEq, -Except.error.injEq, except_error_eq, le, Nat.not_lt.2 le]
  · have lt : h < s.mem.count := Nat.lt_of_not_le le
    rw [if_neg le]
    by_cases zero : h = 0
    · rw [if_pos zero]
      simp [-Except.ok.injEq, -Except.error.injEq, except_error_eq, le, lt, Or.inl zero]
    · rw [if_neg zero]
      cases s.mem.segment? h <;> simp [-Except.ok.injEq, -Except.error.injEq, zero, except_error_eq, le, lt]

theorem State.segUnmap_wf (wf : s.mem.wf = true) (e : s.segUnmap h = .ok t) : t.mem.wf = true := by
  obtain ⟨-, -, rfl⟩ := (State.segUnmap_ok_iff s t h).1 e
  exact Memory.wf_set _ s.mem.free _ _ _ wf rfl

/-! ## SegReplace (R41) -/

theorem State.segReplace_ok_iff :
    s.segReplace h = .ok t ↔
      (h = 0 ∧ 0 < s.mem.count ∧ t = s) ∨
      (h ≠ 0 ∧ ∃ g, s.mem.segment? h = some g ∧ s.allocOk g.len = true ∧
        t = { s with mem := s.mem.setSlot 0 (.mapped g), host := s.host.afterAlloc }) := by
  unfold State.segReplace
  by_cases le : s.mem.count ≤ h
  · simp [le, Memory.segment?_eq_none_of_le _ h le]
    omega
  · rw [if_neg le]
    by_cases zero : h = 0
    · have : 0 < s.mem.count := by omega
      simp [-Except.ok.injEq, -Except.error.injEq, zero, except_ok_eq, this]
    · rw [if_neg zero]
      cases s.mem.segment? h with
      | none => simp [zero]
      | some g => cases ok : s.allocOk g.len <;> simp [-Except.ok.injEq, -Except.error.injEq, zero, ok, except_ok_eq]

theorem State.segReplace_error_iff :
    s.segReplace h = .error k ↔
      ((s.mem.count ≤ h ∨ (h ≠ 0 ∧ s.mem.segment? h = none)) ∧ k = .segmentOutOfRange) ∨
      (h ≠ 0 ∧ (∃ g, s.mem.segment? h = some g ∧ s.allocOk g.len = false) ∧ k = .resourceExhausted) := by
  unfold State.segReplace
  by_cases le : s.mem.count ≤ h
  · simp [-Except.ok.injEq, -Except.error.injEq, Memory.segment?_eq_none_of_le _ h le, le, except_error_eq]
  · rw [if_neg le]
    by_cases zero : h = 0
    · simp [zero]
      omega
    · rw [if_neg zero]
      cases s.mem.segment? h with
      | none => simp [-Except.ok.injEq, -Except.error.injEq, le, zero, except_error_eq]
      | some g => cases ok : s.allocOk g.len <;> simp [-Except.ok.injEq, -Except.error.injEq, le, zero, ok, except_error_eq]

theorem State.segReplace_wf (wf : s.mem.wf = true) (e : s.segReplace h = .ok t) : t.mem.wf = true := by
  obtain ⟨-, -, rfl⟩ | ⟨-, g, hg, -, rfl⟩ := (State.segReplace_ok_iff s t h).1 e
  · exact wf
  · exact Memory.wf_set _ s.mem.free _ _ _ wf (Memory.segment_wf _ h g wf hg)

/-! ## ProgLen and the bound check of LOADP (R42, R90) -/

theorem Memory.progLen_of_segment? (m : Memory) (g : Segment) (e : m.segment? 0 = some g) : m.progLen = g.len := by
  simp [Memory.progLen, e]

theorem State.checkPc_ok_iff : s.checkPc = .ok t ↔ s.pc < s.mem.progLen ∧ t = s := by
  unfold State.checkPc
  by_cases le : s.mem.progLen ≤ s.pc <;> simp [le, eq_comm]
  omega

theorem State.checkPc_error_iff :
    s.checkPc = .error k ↔ s.mem.progLen ≤ s.pc ∧ k = .programCounterOutOfRange := by
  unfold State.checkPc
  by_cases le : s.mem.progLen ≤ s.pc <;> simp [le, eq_comm]

/-! ## Placing a word for the fetch -/

theorem State.placeFetchWord_wf (w : Word) (wf : s.mem.wf = true) (pc : s.pc < Config.segmentMax) :
    (s.placeFetchWord w).mem.wf = true := by
  have hg : s.mem.programOrEmpty.wf = true := by
    unfold Memory.programOrEmpty
    cases e : s.mem.segment? 0 with
    | none => rfl
    | some g => exact Memory.segment_wf _ 0 g wf e
  rw [Segment.wf_iff] at hg
  simp only [Memory.wf, List.all_eq_true] at wf
  simp only [State.placeFetchWord, Memory.withProgram, Memory.wf, List.all_cons, Bool.and_eq_true, List.all_eq_true]
  refine ⟨(Segment.wf_iff _).2 ⟨?_, ?_⟩, fun x hx => wf x (List.mem_of_mem_tail hx)⟩
  · exact Nat.max_le.2 ⟨hg.1, pc⟩
  · exact cellsCanonical_cellsPut _ 0 _ _ _
      (cellsCanonical_weaken _ 0 0 _ _ (le_refl _) (Nat.le_max_left _ _) hg.2) (Nat.zero_le _)
      (Nat.lt_of_lt_of_le (Nat.lt_succ_self _) (Nat.le_max_right _ _))

/-! ## One instruction -/

/-- Everything one instruction can answer: its body's state, or the state before it with a fault entered. -/
theorem State.runInstr_next_iff (body : State → Except FaultKind State) :
    s.runInstr body = .next t ↔
      body s.advancePc = .ok t ∨ ∃ k, body s.advancePc = .error k ∧ t = s.enterFault k := by
  unfold State.runInstr
  cases e : body s.advancePc <;> simp [eq_comm]

theorem State.runInstr_of_ok (body : State → Except FaultKind State) (e : body s.advancePc = .ok t) :
    s.runInstr body = .next t :=
  (State.runInstr_next_iff s t body).2 (.inl e)

theorem State.runInstr_of_error (body : State → Except FaultKind State) (e : body s.advancePc = .error k) :
    s.runInstr body = .next (s.enterFault k) :=
  (State.runInstr_next_iff s _ body).2 (.inr ⟨k, e, rfl⟩)

/-- Every instruction answers a next state: none of them stops the machine outside the run state. -/
theorem exec_answers_next (i : Instr) : ∃ u, exec i s = .next u := by
  cases i <;> exact ⟨_, rfl⟩

end Sys2Proof.Machine
end

