-- ==== Sys2Proof/Laws/Exec.lean ====
section
/-! SUPPORT. One inversion lemma per instruction: everything `exec` can answer for it, guards included, in terms of the
state the instruction is given. Later proofs cite these and unfold no meaning. -/

namespace Sys2Proof.Machine

variable (a b c ia : RegIndex) (iv : Nat) (s t : State)

theorem exec_cmov_iff : exec (.cmov a b c) s = .next t ↔
    t = if s.readReg c ≠ 0#32 then s.advancePc.writeReg a (s.readReg b) else s.advancePc := by
  simp only [exec, execCmov]
  rw [State.runInstr_next_iff]
  simp [eq_comm]

theorem exec_sload_iff : exec (.sload a b c) s = .next t ↔
    (∃ g, s.mem.segment? (s.regNat b) = some g ∧ s.regNat c < g.len ∧
      t = s.advancePc.writeReg a (g.word (s.regNat c))) ∨
    (s.mem.segment? (s.regNat b) = none ∧ t = s.enterFault .segmentOutOfRange) ∨
    (∃ g, s.mem.segment? (s.regNat b) = some g ∧ g.len ≤ s.regNat c ∧ t = s.enterFault .wordIndexOutOfRange) := by
  simp only [exec, execSload]
  rw [State.runInstr_next_iff]
  simp only [State.segRead, State.segAddr_advancePc, State.segAddr_handle, State.segAddr_index, State.advancePc_mem]
  cases s.mem.segment? (s.regNat b) with
  | none => simp
  | some g =>
    by_cases lt : s.regNat c < g.len
    · simp [lt, Nat.not_le.2 lt, eq_comm]
    · simp [lt, Nat.le_of_not_lt lt]

theorem exec_sstore_iff : exec (.sstore a b c) s = .next t ↔
    (∃ g, s.mem.segment? (s.regNat a) = some g ∧ s.regNat b < g.len ∧
      t = { s.advancePc with mem := s.mem.setSlot (s.regNat a) (.mapped (g.setWord (s.regNat b) (s.readReg c))) }) ∨
    (s.mem.segment? (s.regNat a) = none ∧ t = s.enterFault .segmentOutOfRange) ∨
    (∃ g, s.mem.segment? (s.regNat a) = some g ∧ g.len ≤ s.regNat b ∧ t = s.enterFault .wordIndexOutOfRange) := by
  simp only [exec, execSstore]
  rw [State.runInstr_next_iff]
  simp only [State.segWrite, State.segAddr_advancePc, State.segAddr_handle, State.segAddr_index, State.advancePc_mem,
    State.readReg_advancePc]
  cases s.mem.segment? (s.regNat a) with
  | none => simp
  | some g =>
    by_cases lt : s.regNat b < g.len
    · simp [lt, Nat.not_le.2 lt, eq_comm]
    · simp [lt, Nat.le_of_not_lt lt]

theorem exec_add_iff : exec (.add a b c) s = .next t ↔
    t = s.advancePc.writeReg a (wrap32 (s.regNat b + s.regNat c)) := by
  simp only [exec, execAdd]
  rw [State.runInstr_next_iff]
  simp [eq_comm]

theorem exec_mul_iff : exec (.mul a b c) s = .next t ↔
    t = s.advancePc.writeReg a (wrap32 (s.regNat b * s.regNat c)) := by
  simp only [exec, execMul]
  rw [State.runInstr_next_iff]
  simp [eq_comm]

theorem exec_div_iff : exec (.div a b c) s = .next t ↔
    (s.regNat c ≠ 0 ∧ t = s.advancePc.writeReg a (wrap32 (s.regNat b / s.regNat c))) ∨
    (s.regNat c = 0 ∧ t = s.enterFault .divideByZero) := by
  simp only [exec, execDiv]
  rw [State.runInstr_next_iff]
  by_cases zero : s.regNat c = 0 <;> simp [zero, eq_comm]

theorem exec_nand_iff : exec (.nand a b c) s = .next t ↔
    t = s.advancePc.writeReg a (~~~(s.readReg b &&& s.readReg c)) := by
  simp only [exec, execNand]
  rw [State.runInstr_next_iff]
  simp only [except_ok_eq, State.readReg_advancePc, reduceCtorEq, false_and, exists_false, or_false]

theorem exec_halt_iff : exec .halt s = .next t ↔ t = { s.advancePc with run := .halted } := by
  simp only [exec, execHalt]
  rw [State.runInstr_next_iff]
  simp [eq_comm]

theorem exec_activate_iff : exec (.activate b c) s = .next t ↔
    (s.advancePc.allocOk (s.regNat c) = true ∧ ∃ h rest, s.mem.free = h :: rest ∧
      t = ({ s.advancePc with
              mem := { slots := s.mem.slots.set h (.mapped (Segment.zeros (s.regNat c))), free := rest }
              host := s.host.afterAlloc } : State).writeReg b (zext32 h)) ∨
    (s.advancePc.allocOk (s.regNat c) = true ∧ s.mem.free = [] ∧ s.mem.count ≤ Config.handleMax ∧
      t = ({ s.advancePc with
              mem := { slots := s.mem.slots ++ [.mapped (Segment.zeros (s.regNat c))], free := [] }
              host := s.host.afterAlloc } : State).writeReg b (zext32 s.mem.count)) ∨
    ((s.advancePc.allocOk (s.regNat c) = false ∨ (s.mem.free = [] ∧ Config.handleMax < s.mem.count)) ∧
      t = s.enterFault .resourceExhausted) := by
  simp only [exec, execActivate]
  constructor
  · intro run
    rcases (State.runInstr_next_iff s t _).1 run with body | ⟨k, body, rfl⟩
    · split at body
      · rename_i h u map
        cases body
        obtain ⟨ok, ⟨rest, fr, rfl⟩ | ⟨fr, rfl, le, rfl⟩⟩ := (State.segMap_ok_iff s.advancePc u h _).1 map
        · exact .inl ⟨ok, h, rest, fr, rfl⟩
        · exact .inr (.inl ⟨ok, fr, le, rfl⟩)
      · cases body
    · split at body
      · cases body
      · rename_i map
        cases body
        obtain ⟨rfl, why⟩ := (State.segMap_error_iff s.advancePc _ k).1 map
        exact .inr (.inr ⟨why, rfl⟩)
  · rintro (⟨ok, h, rest, fr, rfl⟩ | ⟨ok, fr, le, rfl⟩ | ⟨why, rfl⟩)
    · have map := (State.segMap_ok_iff s.advancePc _ h (s.regNat c)).2 ⟨ok, .inl ⟨rest, fr, rfl⟩⟩
      apply State.runInstr_of_ok
      simp only [State.regNat_advancePc, map]
      rfl
    · have map := (State.segMap_ok_iff s.advancePc _ _ (s.regNat c)).2 ⟨ok, .inr ⟨fr, rfl, le, rfl⟩⟩
      apply State.runInstr_of_ok
      simp only [State.regNat_advancePc, map]
      rfl
    · have map := (State.segMap_error_iff s.advancePc (s.regNat c) _).2 ⟨rfl, why⟩
      apply State.runInstr_of_error
      simp only [State.regNat_advancePc, map]

theorem exec_inactivate_iff : exec (.inactivate c) s = .next t ↔
    (s.regNat c ≠ 0 ∧ (∃ g, s.mem.segment? (s.regNat c) = some g) ∧
      t = { s.advancePc with
              mem := { slots := s.mem.slots.set (s.regNat c) .unmapped, free := s.mem.free ++ [s.regNat c] } }) ∨
    (s.regNat c = 0 ∧ t = s.enterFault .invalidUnmap) ∨
    (s.regNat c ≠ 0 ∧ s.mem.count ≤ s.regNat c ∧ t = s.enterFault .segmentOutOfRange) ∨
    (s.regNat c ≠ 0 ∧ s.regNat c < s.mem.count ∧ s.mem.segment? (s.regNat c) = none ∧
      t = s.enterFault .invalidUnmap) := by
  simp only [exec, execInactivate]
  rw [State.runInstr_next_iff]
  simp only [State.regNat_advancePc]
  by_cases zero : s.regNat c = 0
  · simp [zero]
  · simp only [zero, if_false, State.segUnmap_ok_iff, State.segUnmap_error_iff, State.advancePc_mem, ne_eq,
      not_false_eq_true, true_and, false_and, false_or]
    refine or_congr Iff.rfl ?_
    constructor
    · rintro ⟨k, ⟨le, rfl⟩ | ⟨lt, none, rfl⟩, rfl⟩
      · exact .inl ⟨le, rfl⟩
      · exact .inr ⟨lt, none, rfl⟩
    · rintro (⟨le, rfl⟩ | ⟨lt, none, rfl⟩)
      · exact ⟨_, .inl ⟨le, rfl⟩, rfl⟩
      · exact ⟨_, .inr ⟨lt, none, rfl⟩, rfl⟩

theorem exec_out_iff : exec (.out c) s = .next t ↔
    (s.regNat c ≤ 255 ∧ t = s.advancePc.emit (BitVec.ofNat 8 (s.regNat c))) ∨
    (255 < s.regNat c ∧ t = s.enterFault .outputOverflow) := by
  simp only [exec, execOut]
  rw [State.runInstr_next_iff]
  by_cases gt : 255 < s.regNat c
  · simp [gt, Nat.not_le.2 gt]
  · simp [gt, Nat.le_of_not_lt gt, eq_comm]

theorem exec_inp_iff : exec (.inp c) s = .next t ↔
    t = s.advancePc.drawInput.writeReg c (inputWord s.nextInput) := by
  simp only [exec, execInp]
  rw [State.runInstr_next_iff]
  simp [eq_comm]

theorem State.setPc_advancePc (n : Nat) : s.advancePc.setPc n = s.setPc n := rfl

theorem exec_loadp_iff : exec (.loadp b c) s = .next t ↔
    (s.regNat b = 0 ∧ 0 < s.mem.count ∧ s.regNat c < s.mem.progLen ∧ t = s.setPc (s.regNat c)) ∨
    (s.regNat b ≠ 0 ∧ ∃ g, s.mem.segment? (s.regNat b) = some g ∧
      (s.setPc (s.regNat c)).allocOk g.len = true ∧ s.regNat c < g.len ∧
      t = { s.setPc (s.regNat c) with mem := s.mem.setSlot 0 (.mapped g), host := s.host.afterAlloc }) ∨
    ((s.mem.count ≤ s.regNat b ∨ (s.regNat b ≠ 0 ∧ s.mem.segment? (s.regNat b) = none)) ∧
      t = s.enterFault .segmentOutOfRange) ∨
    (s.regNat b ≠ 0 ∧ (∃ g, s.mem.segment? (s.regNat b) = some g ∧
      (s.setPc (s.regNat c)).allocOk g.len = false) ∧ t = s.enterFault .resourceExhausted) ∨
    (s.regNat b = 0 ∧ 0 < s.mem.count ∧ s.mem.progLen ≤ s.regNat c ∧
      t = s.enterFault .programCounterOutOfRange) ∨
    (s.regNat b ≠ 0 ∧ (∃ g, s.mem.segment? (s.regNat b) = some g ∧
      (s.setPc (s.regNat c)).allocOk g.len = true ∧ g.len ≤ s.regNat c) ∧
      t = s.enterFault .programCounterOutOfRange) := by
  simp only [exec, execLoadp]
  have new : ∀ g, s.mem.segment? (s.regNat b) = some g → (s.mem.setSlot 0 (.mapped g)).progLen = g.len := by
    intro g e
    apply Memory.progLen_of_segment?
    rw [Memory.segment?_eq_some, Memory.setSlot_slots, List.getElem?_set]
    simp [show 0 < s.mem.slots.length from Nat.lt_of_le_of_lt (Nat.zero_le _) (Memory.lt_count_of_segment? _ _ g e)]
  constructor
  · intro run
    rcases (State.runInstr_next_iff s t _).1 run with body | ⟨k, body, rfl⟩
    · split at body
      · rename_i u replace
        obtain ⟨lt, rfl⟩ := (State.checkPc_ok_iff u t).1 body
        obtain ⟨zero, pos, rfl⟩ | ⟨zero, g, e, ok, rfl⟩ :=
          (State.segReplace_ok_iff (s.setPc (s.regNat c)) _ (s.regNat b)).1 replace
        · exact .inl ⟨zero, pos, lt, rfl⟩
        · exact .inr (.inl ⟨zero, g, e, ok, (new g e) ▸ lt, rfl⟩)
      · cases body
    · split at body
      · rename_i u replace
        obtain ⟨le, rfl⟩ := (State.checkPc_error_iff u k).1 body
        obtain ⟨zero, pos, rfl⟩ | ⟨zero, g, e, ok, rfl⟩ :=
          (State.segReplace_ok_iff (s.setPc (s.regNat c)) _ (s.regNat b)).1 replace
        · exact .inr (.inr (.inr (.inr (.inl ⟨zero, pos, le, rfl⟩))))
        · exact .inr (.inr (.inr (.inr (.inr ⟨zero, ⟨g, e, ok, (new g e) ▸ le⟩, rfl⟩))))
      · rename_i replace
        cases body
        obtain ⟨why, rfl⟩ | ⟨zero, why, rfl⟩ :=
          (State.segReplace_error_iff (s.setPc (s.regNat c)) (s.regNat b) k).1 replace
        · exact .inr (.inr (.inl ⟨why, rfl⟩))
        · exact .inr (.inr (.inr (.inl ⟨zero, why, rfl⟩)))
  · have done : ∀ u, (s.setPc (s.regNat c)).segReplace (s.regNat b) = .ok u → u.checkPc = .ok t →
        s.runInstr (fun t => match (t.setPc (t.regNat c)).segReplace (t.regNat b) with
          | .ok u => u.checkPc
          | .error k => .error k) = .next t := by
      intro u replace check
      apply State.runInstr_of_ok
      simp only [State.regNat_advancePc, State.setPc_advancePc, replace, check]
    have beyond : ∀ u k, (s.setPc (s.regNat c)).segReplace (s.regNat b) = .ok u → u.checkPc = .error k →
        s.runInstr (fun t => match (t.setPc (t.regNat c)).segReplace (t.regNat b) with
          | .ok u => u.checkPc
          | .error k => .error k) = .next (s.enterFault k) := by
      intro u k replace check
      apply State.runInstr_of_error
      simp only [State.regNat_advancePc, State.setPc_advancePc, replace, check]
    have failed : ∀ k, (s.setPc (s.regNat c)).segReplace (s.regNat b) = .error k →
        s.runInstr (fun t => match (t.setPc (t.regNat c)).segReplace (t.regNat b) with
          | .ok u => u.checkPc
          | .error k => .error k) = .next (s.enterFault k) := by
      intro k replace
      apply State.runInstr_of_error
      simp only [State.regNat_advancePc, State.setPc_advancePc, replace]
    have jump := fun zero pos => (State.segReplace_ok_iff (s.setPc (s.regNat c)) _ (s.regNat b)).2
      (.inl ⟨zero, pos, rfl⟩)
    have copy := fun zero g e ok => (State.segReplace_ok_iff (s.setPc (s.regNat c)) _ (s.regNat b)).2
      (.inr ⟨zero, g, e, ok, rfl⟩)
    rintro (⟨zero, pos, lt, rfl⟩ | ⟨zero, g, e, ok, lt, rfl⟩ | ⟨why, rfl⟩ | ⟨zero, why, rfl⟩ | ⟨zero, pos, le, rfl⟩ |
      ⟨zero, ⟨g, e, ok, le⟩, rfl⟩)
    · exact done _ (jump zero pos) ((State.checkPc_ok_iff _ _).2 ⟨lt, rfl⟩)
    · exact done _ (copy zero g e ok) ((State.checkPc_ok_iff _ _).2 ⟨(new g e).symm ▸ lt, rfl⟩)
    · exact failed _ ((State.segReplace_error_iff _ _ _).2 (.inl ⟨why, rfl⟩))
    · exact failed _ ((State.segReplace_error_iff _ _ _).2 (.inr ⟨zero, why, rfl⟩))
    · exact beyond _ _ (jump zero pos) ((State.checkPc_error_iff _ _).2 ⟨le, rfl⟩)
    · exact beyond _ _ (copy zero g e ok) ((State.checkPc_error_iff _ _).2 ⟨(new g e).symm ▸ le, rfl⟩)

theorem exec_lv_iff : exec (.lv ia iv) s = .next t ↔ t = s.advancePc.writeReg ia (zext32 iv) := by
  simp only [exec, execLv]
  rw [State.runInstr_next_iff]
  simp [eq_comm]

end Sys2Proof.Machine
end

