-- ==== Sys2Proof/Laws/PerInstr.lean ====
section
/-! SUPPORT. Families of facts made per instruction: one lemma for each constructor of Instr. -/

namespace Sys2Proof.Laws

/-- R57, R61, R65: the word of a well-formed instruction carries that instruction's opcode in bits 31 to 28. -/
def EncodedOpcode.Statement (i : Instr) : Prop := i.wf = true → opcodeOf (encode i) = i.opcode

theorem EncodedOpcode.cmov (a b c : RegIndex) : EncodedOpcode.Statement (.cmov a b c) :=
  fun _ => opcodeOf_encodeThree 0 a b c (by decide)

theorem EncodedOpcode.sload (a b c : RegIndex) : EncodedOpcode.Statement (.sload a b c) :=
  fun _ => opcodeOf_encodeThree 1 a b c (by decide)

theorem EncodedOpcode.sstore (a b c : RegIndex) : EncodedOpcode.Statement (.sstore a b c) :=
  fun _ => opcodeOf_encodeThree 2 a b c (by decide)

theorem EncodedOpcode.add (a b c : RegIndex) : EncodedOpcode.Statement (.add a b c) :=
  fun _ => opcodeOf_encodeThree 3 a b c (by decide)

theorem EncodedOpcode.mul (a b c : RegIndex) : EncodedOpcode.Statement (.mul a b c) :=
  fun _ => opcodeOf_encodeThree 4 a b c (by decide)

theorem EncodedOpcode.div (a b c : RegIndex) : EncodedOpcode.Statement (.div a b c) :=
  fun _ => opcodeOf_encodeThree 5 a b c (by decide)

theorem EncodedOpcode.nand (a b c : RegIndex) : EncodedOpcode.Statement (.nand a b c) :=
  fun _ => opcodeOf_encodeThree 6 a b c (by decide)

theorem EncodedOpcode.halt : EncodedOpcode.Statement .halt :=
  fun _ => opcodeOf_encodeThree 7 0 0 0 (by decide)

theorem EncodedOpcode.activate (b c : RegIndex) : EncodedOpcode.Statement (.activate b c) :=
  fun _ => opcodeOf_encodeThree 8 0 b c (by decide)

theorem EncodedOpcode.inactivate (c : RegIndex) : EncodedOpcode.Statement (.inactivate c) :=
  fun _ => opcodeOf_encodeThree 9 0 0 c (by decide)

theorem EncodedOpcode.out (c : RegIndex) : EncodedOpcode.Statement (.out c) :=
  fun _ => opcodeOf_encodeThree 10 0 0 c (by decide)

theorem EncodedOpcode.inp (c : RegIndex) : EncodedOpcode.Statement (.inp c) :=
  fun _ => opcodeOf_encodeThree 11 0 0 c (by decide)

theorem EncodedOpcode.loadp (b c : RegIndex) : EncodedOpcode.Statement (.loadp b c) :=
  fun _ => opcodeOf_encodeThree 12 0 b c (by decide)

theorem EncodedOpcode.lv (ia : RegIndex) (iv : Nat) : EncodedOpcode.Statement (.lv ia iv) :=
  fun wf => opcodeOf_encodeImmediate ia iv (by simpa [Instr.wf, immediateFits] using wf)

end Sys2Proof.Laws
end

