-- ==== Sys2Proof/Machine/Assembly.lean ====
section
/-! DEFINITION. The assembler notation of 30_encoding.md R66 (the spec's own, D12): the mnemonic of R61 and then the
operands the instruction reads, in field order. -/

namespace Sys2Proof.Machine

/-- R66: `rN`, with `N` the field value. -/
def regName (r : RegIndex) : String :=
  match r with
  | 0 => "r0"
  | 1 => "r1"
  | 2 => "r2"
  | 3 => "r3"
  | 4 => "r4"
  | 5 => "r5"
  | 6 => "r6"
  | 7 => "r7"

/-- R66: three register operands, in field order. -/
def threeNames (a b c : RegIndex) : String := regName a ++ ", " ++ regName b ++ ", " ++ regName c

/-- R66: the notation of an instruction. -/
def assembly : Instr → String
  | .cmov a b c => "CMOV " ++ threeNames a b c
  | .sload a b c => "SLOAD " ++ threeNames a b c
  | .sstore a b c => "SSTORE " ++ threeNames a b c
  | .add a b c => "ADD " ++ threeNames a b c
  | .mul a b c => "MUL " ++ threeNames a b c
  | .div a b c => "DIV " ++ threeNames a b c
  | .nand a b c => "NAND " ++ threeNames a b c
  | .halt => "HALT"
  | .activate b c => "ACTIVATE " ++ regName b ++ ", " ++ regName c
  | .inactivate c => "INACTIVATE " ++ regName c
  | .out c => "OUT " ++ regName c
  | .inp c => "IN " ++ regName c
  | .loadp b c => "LOADP " ++ regName b ++ ", " ++ regName c
  | .lv ia iv => "LV " ++ regName ia ++ ", " ++ toString iv

end Sys2Proof.Machine
end

