-- ==== Sys2Proof/Tests/Slice0.lean ====
section
/-! SUPPORT. Tests on fixed values. Each expected value is the spec's own (95_test_vectors.md, named V-... or S..., or
the worked examples in the rules), or worked out by hand from the rule named. The second half shows, for every statement
with hypotheses, a concrete state and operands that meet them together. -/

namespace Sys2Proof.Tests

open Sys2Proof.Machine

/-! ## Helpers: small states, and the state after one instruction or one step -/

def stateOf : Host.Outcome State Fault Refusal → State → State
  | .next t, _ => t
  | _, s => s

/-- The state after instruction `i`. -/
def ran (i : Instr) (s : State) : State := stateOf (exec i s) s

/-- The state after one step. -/
def stepped (s : State) : State := stateOf (step s) s

/-- Registers set one after the other. -/
def setRegs (s : State) : List (RegIndex × Word) → State
  | [] => s
  | (r, v) :: rest => setRegs (s.writeReg r v) rest

/-- The reset state with these registers. -/
def regs (l : List (RegIndex × Word)) : State := setRegs State.reset l

/-- Segment 0 with ten words of 0, then the given slots, this free pool, these registers; storage is granted twice and
the input is the byte 65, then the end of the stream. -/
def table (slots : List Slot) (free : List Nat) (l : List (RegIndex × Word)) : State :=
  setRegs { State.reset with
    mem := { slots := .mapped (Segment.zeros 10) :: slots, free := free }
    host := { inputScript := [.byte 65, .eos], inputDraws := 0, allocScript := [true, true], allocDraws := 0 } } l

/-- Seven words, word 3 of them 0x12345678 (V-SLD-1). -/
def seven : Segment := (Segment.zeros 7).setWord 3 0x12345678#32

/-- V-LDP-3's segment. -/
def twoWords : Segment := Segment.ofWords [0xA0000001#32, 0x70000000#32]

/-! ## WellFormed: an ill-formed term for its one check -/

theorem test_wf_refuses_26_bit_immediate : (Instr.lv 0 (2 ^ 25)).wf = false := by decide
theorem test_wf_accepts_largest_immediate : (Instr.lv 7 0x1FFFFFF).wf = true := by decide

/-! ## Decoding: words written out bit by bit from R58, R59, R61 -/

theorem test_decode_cmov : decode 0b00000000000000000000000001010011#32 = .instr (.cmov 1 2 3) := by decide
theorem test_decode_sload : decode 0b00010000000000000000000001010011#32 = .instr (.sload 1 2 3) := by decide
theorem test_decode_sstore : decode 0b00100000000000000000000010101100#32 = .instr (.sstore 2 5 4) := by decide
theorem test_decode_add : decode 0b00110000000000000000000011001010#32 = .instr (.add 3 1 2) := by decide
theorem test_decode_mul : decode 0b01000000000000000000000001010011#32 = .instr (.mul 1 2 3) := by decide
theorem test_decode_div : decode 0b01010000000000000000000001010011#32 = .instr (.div 1 2 3) := by decide
theorem test_decode_nand : decode 0b01100000000000000000000110000000#32 = .instr (.nand 6 0 0) := by decide
theorem test_decode_halt : decode 0b01110000000000000000000000000000#32 = .instr .halt := by decide
theorem test_decode_activate : decode 0b10000000000000000000000000010001#32 = .instr (.activate 2 1) := by decide
theorem test_decode_inactivate : decode 0b10010000000000000000000000000010#32 = .instr (.inactivate 2) := by decide
theorem test_decode_out : decode 0b10100000000000000000000000000011#32 = .instr (.out 3) := by decide
theorem test_decode_in : decode 0b10110000000000000000000000000100#32 = .instr (.inp 4) := by decide
theorem test_decode_loadp : decode 0b11000000000000000000000000010011#32 = .instr (.loadp 2 3) := by decide
theorem test_decode_lv : decode 0b11010010000000000000000001000010#32 = .instr (.lv 1 66) := by decide
/-- V-DEC-7, V-DEC-8. -/
theorem test_decode_invalid : decode 0xE0000000#32 = .invalid 14 ∧ decode 0xFFFFFFFF#32 = .invalid 15 := by decide
/-- V-DEC-2, V-DEC-3: ignored bits. -/
theorem test_decode_ignored_bits :
    decode 0x0FFFFE53#32 = .instr (.cmov 1 2 3) ∧ decode 0x7FFFFFFF#32 = .instr .halt := by decide
/-- R67. -/
theorem test_encode_examples :
    encode (.add 3 1 2) = 0x300000CA#32 ∧ encode (.loadp 0 5) = 0xC0000005#32 ∧ encode (.lv 7 0x1FFFFFF) = 0xDFFFFFFF#32 := by
  decide
theorem test_decodeTableWord : decodeTableWord 32 0xD2000042 = some (.lv 1 66) ∧ decodeTableWord 32 0xE0000000 = none := by
  decide
/-- R66. -/
theorem test_assembly_add : assembly (.add 3 1 2) = "ADD r3, r1, r2" := by decide

/-! ## One instruction each -/

/-- V-CMOV-3: the condition is the old r1. -/
theorem test_cmov_condition_is_destination : (ran (.cmov 1 2 1) (regs [(1, 5), (2, 9)])).readReg 1 = 9 := by decide
/-- V-CMOV-2. -/
theorem test_cmov_not_taken : (ran (.cmov 1 2 3) (regs [(1, 5), (2, 9)])).readReg 1 = 5 := by decide
/-- V-SLD-1. -/
theorem test_sload : (ran (.sload 1 2 3) (table [.mapped seven] [] [(2, 1), (3, 3)])).readReg 1 = 0x12345678 := by decide
/-- V-SLD-6: the handle is tested first. -/
theorem test_sload_handle_first :
    (ran (.sload 1 2 3) (table [.mapped seven] [] [(2, 9), (3, 0xFFFFFFFF)])).run = .faulted .segmentOutOfRange := by decide
/-- V-SST-1. -/
theorem test_sstore :
    (ran (.sstore 1 2 3) (table [.mapped seven] [] [(1, 1), (2, 6), (3, 0xCAFE)])).wordAt 1 6 = some 0xCAFE#32 := by decide
/-- V-SST-3. -/
theorem test_sstore_at_the_end :
    (ran (.sstore 1 2 3) (table [] [] [(2, 10)])).run = .faulted .wordIndexOutOfRange := by decide
/-- V-ADD-2. -/
theorem test_add_wraps : (ran (.add 3 1 2) (regs [(1, 0xFFFFFFFF), (2, 1), (3, 7)])).readReg 3 = 0 := by decide
/-- V-MUL-3. -/
theorem test_mul_keeps_low_half :
    (ran (.mul 1 2 3) (regs [(2, 0x12345678), (3, 0x9ABCDEF0)])).readReg 1 = 0x242D2080 := by decide
/-- V-DIV-6: unsigned. -/
theorem test_div_unsigned : (ran (.div 1 2 3) (regs [(2, 0x80000000), (3, 2)])).readReg 1 = 0x40000000 := by decide
/-- V-DIV-1, P7: pc and r1 as before the step. -/
theorem test_div_by_zero : ran (.div 1 2 3) (regs [(1, 9), (2, 100)]) =
    { regs [(1, 9), (2, 100)] with run := .faulted .divideByZero } := by decide
/-- V-NAND-1. -/
theorem test_nand : (ran (.nand 1 2 3) (regs [(2, 0xF0F0F0F0), (3, 0xFF00FF00)])).readReg 1 = 0x0FFF0FFF := by decide
/-- V-HLT-1. -/
theorem test_halt : (ran .halt State.reset).run = .halted ∧ (ran .halt State.reset).pc = 1 := by decide
/-- V-ACT-3: the oldest freed handle, a new zero-filled segment. -/
theorem test_activate_reuses :
    (ran (.activate 2 1) (table [.unmapped, .unmapped, .mapped seven] [2, 1] [(1, 5)])).mem =
      { slots := [.mapped (Segment.zeros 10), .unmapped, .mapped (Segment.zeros 5), .mapped seven], free := [1] } := by decide
/-- V-ACT-4: the size is the old r7, the first handle is 1. -/
theorem test_activate_first_handle : (ran (.activate 7 7) (table [] [] [(7, 2)])).readReg 7 = 1 := by decide
/-- V-INA-5. -/
theorem test_inactivate_order :
    (ran (.inactivate 3) (ran (.inactivate 2) (table [.mapped seven, .mapped seven] [] [(2, 2), (3, 1)]))).mem.free =
      [2, 1] := by decide
/-- V-INA-3: double free. -/
theorem test_inactivate_twice :
    (ran (.inactivate 2) (table [.unmapped] [1] [(2, 1)])).run = .faulted .invalidUnmap := by decide
/-- V-OUT-1, S7. -/
theorem test_out_255 : (ran (.out 3) (regs [(3, 255)])).out = [255#8] := by decide
/-- V-OUT-2, S7. -/
theorem test_out_256 : (ran (.out 3) (regs [(3, 256)])).run = .faulted .outputOverflow := by decide
/-- V-IN-1. -/
theorem test_in_byte : (ran (.inp 4) (table [] [] [])).readReg 4 = 65 := by decide
/-- V-IN-2. -/
theorem test_in_end_of_stream : (ran (.inp 4) (ran (.inp 5) (table [] [] []))).readReg 4 = 0xFFFFFFFF := by decide
/-- V-LDP-3. -/
theorem test_loadp_replaces :
    (ran (.loadp 2 3) (table [.mapped twoWords] [] [(2, 1), (3, 1)])).wordAt 0 1 = some 0x70000000#32 := by decide
/-- V-LDP-7, Scenario D: nothing of the replacement persists. -/
theorem test_loadp_beyond_the_new_program :
    ran (.loadp 2 3) (table [.mapped twoWords] [] [(2, 1), (3, 3)]) =
      { table [.mapped twoWords] [] [(2, 1), (3, 3)] with run := .faulted .programCounterOutOfRange } := by decide
/-- V-LV-3: the upper 7 bits are cleared. -/
theorem test_lv_clears_upper_bits : (ran (.lv 0 0) (regs [(0, 0xFFFFFFFF)])).readReg 0 = 0 := by decide

/-! ## One step each -/

/-- V-FET-1: an empty program, which `State.reset` is. -/
theorem test_step_empty_program :
    stepped State.reset = { State.reset with run := .faulted .wordIndexOutOfRange } := by decide
/-- V-FET-3. -/
theorem test_step_invalid_opcode :
    stepped (State.boot [0xE0000000#32]) = { State.boot [0xE0000000#32] with run := .faulted .invalidOpcode } := by decide
/-- P1's first step, through the placement of a word. -/
theorem test_step_placed_word :
    (stepped (State.reset.withFetchWord 32 0xD2000042)).readReg 1 = 66 ∧
    (stepped (State.reset.withFetchWord 32 0xD2000042)).pc = 1 := by decide
/-- R27: most significant byte first. -/
theorem test_load_file : wordsOfFile [0x70#8, 0#8, 0#8, 0x01#8] = .ok [0x70000001#32] := by rfl

/-! ## The hypotheses of the statements can be met -/

theorem decided_inv (s : State) (h1 : s.mem.wf = true) (h2 : (s.mem.segment? 0).isSome = true)
    (h3 : s.mem.count ≤ Config.handleMax + 1) (h4 : ∀ h ∈ s.mem.free, s.mem.slots[h]? = some .unmapped)
    (h5 : ∀ h < s.mem.slots.length, s.mem.slots[h]? = some .unmapped → h ∈ s.mem.free) (h6 : s.mem.free.Nodup)
    (h7 : s.pc ≤ 2 ^ 32 - 1) : s.Inv := ⟨h1, h2, h3, h4, h5, h6, h7⟩

/-- Slots 1 and 3 mapped, slot 2 free; r0 = 0, r1 = 1, r2 = 2, r3 = 3, r4 = 4, r5 = 6, r6 = 7, r7 = 9. -/
def busy : State :=
  table [.mapped seven, .unmapped, .mapped twoWords] [2]
    [(1, 1), (2, 2), (3, 3), (4, 4), (5, 6), (6, 7), (7, 9)]

theorem busy_inv : busy.Inv := decided_inv busy (by decide) (by decide) (by decide) (by decide) (by decide) (by decide) (by decide)

/-- Slots 1 and 3 mapped, none free. -/
def full : State := { busy with mem := { slots := busy.mem.slots.set 2 (.mapped seven), free := [] } }

/-- `n` unmapped slots and an empty pool: the count at a bound (no run reaches it; the premises do not ask for that). -/
def slotsOnly (n : Nat) (answer : Bool) : State :=
  { State.reset with
    mem := { slots := List.replicate n .unmapped, free := [] }
    host := { inputScript := [], inputDraws := 0, allocScript := [answer], allocDraws := 0 } }

theorem witness_CodecFieldsRoundTrip : 13 ≤ 13 ∧ 2 ^ 25 - 1 < 2 ^ 25 := by decide
theorem witness_DecodeEncodeIsIdentity : (Instr.lv 7 (2 ^ 25 - 1)).wf = true := by decide
theorem witness_OnlyOpcodes14And15AreInvalid :
    (State.boot [0xE0000000#32]).run = .running ∧ (State.boot [0xE0000000#32]).fetch = .ok 0xE0000000#32 ∧
    14 ≤ opcodeOf 0xE0000000#32 := ⟨rfl, rfl, by decide⟩
theorem witness_DecodeFollowsOpcodeMap :
    (∀ k < 14, BitVec.ofNat 32 (k * 2 ^ 28 + 0x10000CA) &&& 0xF0000000#32 = BitVec.ofNat 32 (k * 2 ^ 28)) ∧
    (∀ k < 14, ((BitVec.ofNat 32 (k * 2 ^ 28 + 0x10000CA)).extractLsb' 6 3).toNat = (3 : RegIndex).val ∧
      ((BitVec.ofNat 32 (k * 2 ^ 28 + 0x10000CA)).extractLsb' 3 3).toNat = (1 : RegIndex).val ∧
      ((BitVec.ofNat 32 (k * 2 ^ 28 + 0x10000CA)).extractLsb' 0 3).toNat = (2 : RegIndex).val ∧
      ((BitVec.ofNat 32 (k * 2 ^ 28 + 0x10000CA)).extractLsb' 25 3).toNat = (0 : RegIndex).val ∧
      ((BitVec.ofNat 32 (k * 2 ^ 28 + 0x10000CA)).extractLsb' 0 25).toNat = 0x10000CA) := by decide
theorem witness_IgnoredBitsHaveNoEffect :
    0x00000053#32 &&& readMask (opcodeOf 0x00000053#32) = 0x0FFFFE53#32 &&& readMask (opcodeOf 0x00000053#32) := by decide
theorem witness_EncodeOfDecodeKeepsReadBits : decode 0xB0000FFC#32 = .instr (.inp 4) := by decide
theorem witness_StepRunsDecodedInstruction :
    (State.boot [0x70000000#32]).run = .running ∧ (State.boot [0x70000000#32]).fetch = .ok 0x70000000#32 ∧
    decode 0x70000000#32 = .instr .halt := ⟨rfl, rfl, by decide⟩
theorem witness_FetchReadsSegmentZeroOrFaults :
    busy.run = .running ∧ busy.mem.segment? 0 = some (Segment.zeros 10) ∧ (busy.setPc 9).pc < (Segment.zeros 10).len ∧
    (Segment.zeros 10).len ≤ (busy.setPc 10).pc ∧ (busy.setPc 10).mem.segment? 0 = some (Segment.zeros 10) := by decide
theorem witness_EndedRunAnswersItsFault :
    (ran .halt State.reset).run = .halted ∧ (stepped State.reset).run = .faulted .wordIndexOutOfRange := by decide
theorem witness_FaultingStepHasNoOtherEffect :
    step State.reset = .next (stepped State.reset) ∧ (stepped State.reset).run = .faulted .wordIndexOutOfRange :=
  ⟨rfl, by decide⟩
theorem witness_FaultsHaveTheirCauses :
    ((State.boot [0x50000000#32]).mem.segment? 0).isSome = true ∧
    step (State.boot [0x50000000#32]) = .next (stepped (State.boot [0x50000000#32])) ∧
    (stepped (State.boot [0x50000000#32])).run = .faulted .divideByZero ∧
    (stepped (State.boot [0xE0000000#32])).run = .faulted .invalidOpcode ∧
    (stepped (State.boot [])).run = .faulted .wordIndexOutOfRange := ⟨by decide, rfl, by decide, by decide, by decide⟩
theorem witness_BootMeetsInvariant : (List.replicate Config.programMax (0#32)).length ≤ Config.programMax := by
  rw [List.length_replicate]
theorem witness_StepKeepsInvariant : busy.Inv ∧ step busy = .next (stepped busy) := ⟨busy_inv, rfl⟩
theorem witness_RegistersWrittenOnlyByTheirRules :
    exec (.add 1 6 7) busy = .next (ran (.add 1 6 7) busy) ∧ (Instr.add 1 6 7).destination ≠ some 2 ∧
    exec (.mul 1 6 7) busy = .next (ran (.mul 1 6 7) busy) := ⟨rfl, by decide, rfl⟩
theorem witness_OnlyLoadpWritesPc :
    (exec .halt busy = .next (ran .halt busy) ∧ (ran .halt busy).hasFaulted = false ∧ ∀ b c, Instr.halt ≠ .loadp b c) ∧
    (exec (.loadp 0 7) busy = .next (ran (.loadp 0 7) busy) ∧ (ran (.loadp 0 7) busy).hasFaulted = false) ∧
    (busy.Inv ∧ busy.fetch = .ok 0#32) := ⟨⟨rfl, rfl, by decide⟩, ⟨rfl, by decide⟩, busy_inv, rfl⟩
theorem witness_MemoryReachedOnlyByItsInstructions :
    (Instr.sload 4 1 3).changesMemory = false ∧ exec (.sload 4 1 3) busy = .next (ran (.sload 4 1 3) busy) ∧
    (Instr.cmov 4 1 3).reachesMemory = false ∧ exec (.cmov 4 1 3) busy = .next (ran (.cmov 4 1 3) busy) :=
  ⟨rfl, rfl, rfl, rfl⟩
theorem witness_OutputLogGrowsOnlyByOut :
    exec (.out 7) busy = .next (ran (.out 7) busy) ∧ (ran (.out 7) busy).out = [9#8] ∧ step busy = .next (stepped busy) :=
  ⟨rfl, by decide, rfl⟩
theorem witness_SegmentCountNeverDecreases :
    exec (.activate 4 1) full = .next (ran (.activate 4 1) full) ∧ (ran (.activate 4 1) full).mem.count = 5 ∧
    step full = .next (stepped full) := ⟨rfl, by decide, rfl⟩
theorem witness_SegmentsKeepTheirLength :
    busy.Inv ∧ exec (.activate 4 1) busy = .next (ran (.activate 4 1) busy) ∧
    busy.mem.segment? 1 = some seven ∧ (ran (.activate 4 1) busy).mem.segment? 1 = some seven ∧
    ((1 : Nat) ≠ 0 ∨ ∀ b c, Instr.activate 4 1 ≠ .loadp b c) ∧ (∀ a b c, Instr.activate 4 1 ≠ .sstore a b c) ∧
    busy.mem.segment? 2 = none ∧ (ran (.activate 4 1) busy).mem.segment? 2 = some (Segment.zeros 1) :=
  ⟨busy_inv, rfl, by decide, by decide, by decide, by decide, by decide, by decide⟩
theorem witness_SegmentZeroStaysMapped :
    (busy.mem.segment? 0).isSome = true ∧ 0 ∉ busy.mem.free ∧ step busy = .next (stepped busy) ∧
    busy.mem.segment? 0 = some (Segment.zeros 10) := ⟨by decide, by decide, rfl, by decide⟩
theorem witness_OnlyThreeInstructionsAskTheHost :
    (Instr.div 4 7 2).asksHost = false ∧ exec (.div 4 7 2) busy = .next (ran (.div 4 7 2) busy) := ⟨rfl, rfl⟩
theorem witness_CmovCompletes : busy.regNat 3 ≠ 0 ∧ busy.regNat 0 = 0 := by decide
theorem witness_SloadCompletes : busy.mem.segment? (busy.regNat 1) = some seven ∧ busy.regNat 5 < seven.len := by decide
theorem witness_SstoreCompletes :
    busy.mem.wf = true ∧ busy.mem.segment? (busy.regNat 1) = some seven ∧ busy.regNat 5 < seven.len := by decide
theorem witness_AccessOutOfRangeFaults :
    busy.mem.segment? (busy.regNat 2) = none ∧ busy.mem.segment? (busy.regNat 4) = none ∧
    busy.mem.segment? (busy.regNat 1) = some seven ∧ seven.len ≤ busy.regNat 6 := by decide
theorem witness_DivCompletes : busy.regNat 1 ≠ 0 := by decide
theorem witness_DivByZeroFaults : busy.regNat 0 = 0 := by decide
theorem witness_ActivateReusesOldestHandle :
    busy.Inv ∧ busy.mem.free = [2] ∧ busy.advancePc.allocOk (busy.regNat 1) = true := ⟨busy_inv, rfl, rfl⟩
theorem witness_ActivateMakesFreshHandle :
    (full.mem.free = [] ∧ full.mem.count ≤ Config.handleMax ∧ full.advancePc.allocOk (full.regNat 1) = true) ∧
    ((slotsOnly Config.handleMax true).mem.free = [] ∧
      (slotsOnly Config.handleMax true).mem.count ≤ Config.handleMax ∧
      (slotsOnly Config.handleMax true).advancePc.allocOk ((slotsOnly Config.handleMax true).regNat 1) = true) :=
  ⟨⟨rfl, by decide, rfl⟩, rfl, by simp [slotsOnly, Memory.count], rfl⟩
theorem witness_ActivateExhaustionFaults :
    (slotsOnly 1 false).advancePc.allocOk ((slotsOnly 1 false).regNat 1) = false ∧
    ((slotsOnly (Config.handleMax + 1) true).mem.free = [] ∧
      Config.handleMax < (slotsOnly (Config.handleMax + 1) true).mem.count) :=
  ⟨rfl, rfl, by simp [slotsOnly, Memory.count]⟩
theorem witness_InactivateCompletes :
    busy.regNat 3 ≠ 0 ∧ busy.mem.segment? (busy.regNat 3) = some twoWords := by decide
theorem witness_InactivateFaults :
    busy.regNat 0 = 0 ∧ (busy.regNat 4 ≠ 0 ∧ busy.mem.count ≤ busy.regNat 4) ∧
    (busy.regNat 2 ≠ 0 ∧ busy.regNat 2 < busy.mem.count ∧ busy.mem.segment? (busy.regNat 2) = none) := by decide
theorem witness_OutCompletes : (regs [(3, 255)]).regNat 3 ≤ 255 := by decide
theorem witness_OutOverflowFaults : 255 < (regs [(3, 256)]).regNat 3 := by decide
theorem witness_InCompletes :
    busy.nextInput = .byte 65#8 ∧ (ran (.inp 1) busy).nextInput = .eos := by decide
theorem witness_LoadpJumpCompletes :
    busy.regNat 0 = 0 ∧ busy.mem.segment? 0 = some (Segment.zeros 10) ∧ busy.regNat 7 < (Segment.zeros 10).len := by decide
theorem witness_LoadpReplaceCompletes :
    busy.regNat 3 ≠ 0 ∧ busy.mem.segment? (busy.regNat 3) = some twoWords ∧
    (busy.setPc (busy.regNat 1)).allocOk twoWords.len = true ∧ busy.regNat 1 < twoWords.len := by decide
theorem witness_LoadpFaults :
    busy.mem.count ≤ busy.regNat 4 ∧ (busy.regNat 2 ≠ 0 ∧ busy.mem.segment? (busy.regNat 2) = none) ∧
    ((setRegs (slotsOnly 0 false) [(3, 3)]).regNat 3 ≠ 0 ∧
      ({ setRegs (slotsOnly 0 false) [(3, 3)] with mem := busy.mem } : State).mem.segment? 3 = some twoWords ∧
      (({ setRegs (slotsOnly 0 false) [(3, 3)] with mem := busy.mem } : State).setPc 0).allocOk twoWords.len = false) ∧
    (busy.regNat 3 ≠ 0 ∧ busy.mem.segment? (busy.regNat 3) = some twoWords ∧
      (busy.setPc (busy.regNat 2)).allocOk twoWords.len = true ∧ twoWords.len ≤ busy.regNat 2) ∧
    ((regs [(1, 0)]).regNat 0 = 0 ∧ (regs [(1, 0)]).mem.segment? 0 = some (Segment.zeros 0) ∧
      (Segment.zeros 0).len ≤ (regs [(1, 0)]).regNat 1) := by decide
theorem witness_LvCompletes : (Instr.lv 0 0x1FFFFFF).wf = true := by decide
theorem witness_StoredWordIsFetched :
    busy.mem.wf = true ∧ busy.regNat 0 = 0 ∧ exec (.sstore 0 7 5) busy = .next (ran (.sstore 0 7 5) busy) ∧
    (ran (.sstore 0 7 5) busy).hasFaulted = false := ⟨by decide, by decide, rfl, by decide⟩
/-- `SSTORE r0, r0, r7` at index 0 stores over its own word. -/
def overItself : State := busy.withFetchWord 32 0x20000007
theorem witness_StoredWordIsFetched_over_itself :
    overItself.run = .running ∧ overItself.fetch = .ok 0x20000007#32 ∧
    decode 0x20000007#32 = .instr (.sstore 0 0 7) ∧ overItself.regNat 0 = 0 ∧ overItself.regNat 0 = overItself.pc :=
  ⟨rfl, rfl, by decide, by decide, by decide⟩
theorem witness_LoadpIsSeenWholeByTheNextFetch :
    exec (.loadp 3 1) busy = .next (ran (.loadp 3 1) busy) ∧ (ran (.loadp 3 1) busy).hasFaulted = false ∧
    exec (.loadp 0 1) busy = .next (ran (.loadp 0 1) busy) ∧ (ran (.loadp 0 1) busy).hasFaulted = false :=
  ⟨rfl, by decide, rfl, by decide⟩
theorem witness_SegmentStorageIsNeverShared_unmap_and_map :
    exec (.inactivate 1) busy = .next (ran (.inactivate 1) busy) ∧ (busy.mem.segment? 1).isSome = true ∧
    (ran (.inactivate 1) busy).mem.segment? 1 = none ∧
    (busy.mem.segment? 0).isSome = true ∧ exec (.activate 4 1) busy = .next (ran (.activate 4 1) busy) ∧
    busy.mem.segment? 2 = none ∧ ((ran (.activate 4 1) busy).mem.segment? 2).isSome = true :=
  ⟨rfl, by decide, by decide, by decide, rfl, by decide, by decide⟩
theorem witness_SegmentStorageIsNeverShared_store_and_copy :
    exec (.sstore 1 2 3) busy = .next (ran (.sstore 1 2 3) busy) ∧ 3 ≠ busy.regNat 1 ∧
    exec (.loadp 3 1) busy = .next (ran (.loadp 3 1) busy) ∧ (ran (.loadp 3 1) busy).hasFaulted = false ∧
    busy.regNat 3 ≠ 0 ∧ (ran (.loadp 3 1) busy).regNat 3 = busy.regNat 3 ∧
    exec (.sstore 3 1 7) (ran (.loadp 3 1) busy) = .next (ran (.sstore 3 1 7) (ran (.loadp 3 1) busy)) ∧
    exec (.inactivate 3) (ran (.loadp 3 1) busy) = .next (ran (.inactivate 3) (ran (.loadp 3 1) busy)) :=
  ⟨rfl, by decide, rfl, by decide, by decide, by decide, rfl, rfl⟩

/-- The chain of four instructions of `OldestFreedHandleComesBackFirst`, from a state with an empty pool. -/
def freed1 : State := ran (.inactivate 3) full
def freed2 : State := ran (.inactivate 1) freed1
def mapped1 : State := ran (.activate 4 2) freed2
def mapped2 : State := ran (.activate 5 2) mapped1
theorem witness_OldestFreedHandleComesBackFirst :
    full.mem.free = [] ∧ exec (.inactivate 3) full = .next freed1 ∧ freed1.hasFaulted = false ∧
    exec (.inactivate 1) freed1 = .next freed2 ∧ freed2.hasFaulted = false ∧
    exec (.activate 4 2) freed2 = .next mapped1 ∧ mapped1.hasFaulted = false ∧
    exec (.activate 5 2) mapped1 = .next mapped2 ∧ mapped2.hasFaulted = false :=
  ⟨rfl, rfl, by decide, rfl, by decide, rfl, by decide, rfl, by decide⟩
theorem witness_MapReturnsNoLiveHandle :
    busy.Inv ∧ exec (.activate 4 1) busy = .next (ran (.activate 4 1) busy) ∧ (ran (.activate 4 1) busy).hasFaulted = false :=
  ⟨busy_inv, rfl, by decide⟩
theorem witness_EqualWordsAreEqualSegments :
    seven.wf = true ∧ ((Segment.zeros 7).setWord 3 0x12345678#32).wf = true ∧
    seven.len = ((Segment.zeros 7).setWord 3 0x12345678#32).len ∧
    ∀ i < seven.len, seven.word i = ((Segment.zeros 7).setWord 3 0x12345678#32).word i := by decide
theorem witness_ProgramFilesAreMostSignificantByteFirst : [0#8, 1#8, 2#8, 3#8, 4#8].length % 4 ≠ 0 := by decide
theorem witness_LoaderRefusesOnlyLongPrograms :
    (List.replicate (2 ^ 32 - 1) (0#32)).length ≤ 2 ^ 32 - 1 ∧ 2 ^ 32 - 1 < (List.replicate (2 ^ 32) (0#32)).length := by
  simp only [List.length_replicate]
  decide
theorem witness_PlacedWordRunsNext : busy.mem.wf = true ∧ decodeTableWord 32 0x70000000 = some .halt := by decide

end Sys2Proof.Tests
end

section
/-! PROOF. What one instruction and one step can do to a state, said once, and the statements of 10_state.md that follow
from it: the invariant of the reachable states, the frames of registers, output log and Segment Table, the state before
the first fetch and the loader. -/

namespace Sys2Proof.Machine

/-! ## What one instruction can do

`Effect` joins the fourteen inversion lemmas of Laws/Exec.lean into the few kinds of change there are, each with the guards
that later proofs need; `exec_effect` is the only place below that splits on the instruction. -/

/-- `Effect i s t`: running `i` in `s` may leave `t`. -/
inductive Effect (i : Instr) (s : State) : State → Prop where
  /-- R95: a fault, whose only trace is the run state. -/
  | faulted (k : FaultKind) : Effect i s (s.enterFault k)
  /-- R77: a CMOV whose condition is 0. -/
  | skipped : Effect i s s.advancePc
  /-- R17: a result in the instruction's destination. -/
  | wrote (r : RegIndex) (v : Word) (dest : i.destination = some r) : Effect i s (s.advancePc.writeReg r v)
  /-- R85. -/
  | halted : Effect i s { s.advancePc with run := .halted }
  /-- R88. -/
  | emitted (c : RegIndex) (out : i = .out c) (fits : s.regNat c ≤ 255) :
      Effect i s (s.advancePc.emit (BitVec.ofNat 8 (s.regNat c)))
  /-- R89. -/
  | received (c : RegIndex) (v : Word) (dest : i.destination = some c) :
      Effect i s (s.advancePc.drawInput.writeReg c v)
  /-- R90: LOADP of handle 0. -/
  | jumped (c : RegIndex) : Effect i s (s.setPc (s.regNat c))
  /-- R79. -/
  | stored (a b c : RegIndex) (store : i = .sstore a b c) (h j : Nat) (v : Word) (g : Segment)
      (mapped : s.mem.segment? h = some g) (lt : j < g.len) :
      Effect i s { s.advancePc with mem := s.mem.setSlot h (.mapped (g.setWord j v)) }
  /-- R37, R86: the oldest free handle. -/
  | reused (b : RegIndex) (dest : i.destination = some b) (n h : Nat) (rest : List Nat) (size : n ≤ Config.segmentMax)
      (free : s.mem.free = h :: rest) :
      Effect i s (({ s.advancePc with
        mem := { slots := s.mem.slots.set h (.mapped (Segment.zeros n)), free := rest }
        host := s.host.afterAlloc } : State).writeReg b (zext32 h))
  /-- R37, R86: a fresh handle. -/
  | extended (b c : RegIndex) (activate : i = .activate b c) (n : Nat) (size : n ≤ Config.segmentMax)
      (free : s.mem.free = []) (bound : s.mem.count ≤ Config.handleMax) :
      Effect i s (({ s.advancePc with
        mem := { slots := s.mem.slots ++ [.mapped (Segment.zeros n)], free := [] }
        host := s.host.afterAlloc } : State).writeReg b (zext32 s.mem.count))
  /-- R38, R87. -/
  | unmapped (h : Nat) (g : Segment) (nonzero : h ≠ 0) (mapped : s.mem.segment? h = some g) :
      Effect i s { s.advancePc with mem := { slots := s.mem.slots.set h .unmapped, free := s.mem.free ++ [h] } }
  /-- R41, R90: LOADP of another handle. -/
  | replaced (b c : RegIndex) (loadp : i = .loadp b c) (h : Nat) (g : Segment) (mapped : s.mem.segment? h = some g) :
      Effect i s { s.setPc (s.regNat c) with mem := s.mem.setSlot 0 (.mapped g), host := s.host.afterAlloc }

section
variable {i : Instr} {s t : State}

/-- A size operand is a register, so no segment is longer than 2^32 - 1 words (R9, R22). -/
theorem State.regNat_le_segmentMax (s : State) (r : RegIndex) : s.regNat r ≤ Config.segmentMax :=
  Nat.le_sub_one_of_lt (s.regNat_lt r)

theorem exec_effect (run : exec i s = .next t) : Effect i s t := by
  cases i with
  | cmov a b c =>
    rw [exec_cmov_iff] at run
    subst run
    split
    · exact .wrote a _ rfl
    · exact .skipped
  | sload a b c =>
    rw [exec_sload_iff] at run
    obtain ⟨g, -, -, rfl⟩ | ⟨-, rfl⟩ | ⟨g, -, -, rfl⟩ := run
    · exact .wrote a _ rfl
    all_goals exact .faulted _
  | sstore a b c =>
    rw [exec_sstore_iff] at run
    obtain ⟨g, mapped, lt, rfl⟩ | ⟨-, rfl⟩ | ⟨g, -, -, rfl⟩ := run
    · exact .stored a b c rfl _ _ _ g mapped lt
    all_goals exact .faulted _
  | add a b c => exact (exec_add_iff a b c s t).1 run ▸ .wrote a _ rfl
  | mul a b c => exact (exec_mul_iff a b c s t).1 run ▸ .wrote a _ rfl
  | div a b c =>
    rw [exec_div_iff] at run
    obtain ⟨-, rfl⟩ | ⟨-, rfl⟩ := run
    · exact .wrote a _ rfl
    · exact .faulted _
  | nand a b c => exact (exec_nand_iff a b c s t).1 run ▸ .wrote a _ rfl
  | halt => exact (exec_halt_iff s t).1 run ▸ .halted
  | activate b c =>
    rw [exec_activate_iff] at run
    obtain ⟨-, h, rest, free, rfl⟩ | ⟨-, free, bound, rfl⟩ | ⟨-, rfl⟩ := run
    · exact .reused b rfl _ h rest (s.regNat_le_segmentMax c) free
    · exact .extended b c rfl _ (s.regNat_le_segmentMax c) free bound
    · exact .faulted _
  | inactivate c =>
    rw [exec_inactivate_iff] at run
    obtain ⟨nonzero, ⟨g, mapped⟩, rfl⟩ | ⟨-, rfl⟩ | ⟨-, -, rfl⟩ | ⟨-, -, -, rfl⟩ := run
    · exact .unmapped _ g nonzero mapped
    all_goals exact .faulted _
  | out c =>
    rw [exec_out_iff] at run
    obtain ⟨fits, rfl⟩ | ⟨-, rfl⟩ := run
    · exact .emitted c rfl fits
    · exact .faulted _
  | inp c => exact (exec_inp_iff c s t).1 run ▸ .received c _ rfl
  | loadp b c =>
    rw [exec_loadp_iff] at run
    obtain ⟨-, -, -, rfl⟩ | ⟨-, g, mapped, -, -, rfl⟩ | ⟨-, rfl⟩ | ⟨-, -, rfl⟩ | ⟨-, -, -, rfl⟩ | ⟨-, -, rfl⟩ := run
    · exact .jumped c
    · exact .replaced b c rfl _ g mapped
    all_goals exact .faulted _
  | lv ia iv => exact (exec_lv_iff ia iv s t).1 run ▸ .wrote ia _ rfl

/-! ## What one step can do -/

/-- R72: a step is a fault entered from the state before it, or the decoded instruction. -/
theorem step_next_cases (next : step s = .next t) :
    (∃ k, t = s.enterFault k) ∨ ∃ w i, s.fetch = .ok w ∧ decode w = .instr i ∧ exec i s = .next t := by
  unfold step at next
  split at next
  · cases next
  · cases next
  · split at next
    · cases next
      exact .inl ⟨_, rfl⟩
    · rename_i w fetch
      split at next
      · cases next
        exact .inl ⟨_, rfl⟩
      · rename_i i decoded
        exact .inr ⟨w, i, fetch, decoded, next⟩

/-- What fault entry and every instruction keep, every step keeps. -/
theorem step_induction {P : State → Prop} (next : step s = .next t) (fault : ∀ k, P (s.enterFault k))
    (instr : ∀ i, exec i s = .next t → P t) : P t := by
  obtain ⟨k, rfl⟩ | ⟨_, i, -, -, run⟩ := step_next_cases next
  · exact fault k
  · exact instr i run

theorem step_of_halted (halted : s.run = .halted) : step s = .fault .engineHalted := by
  simp [step, halted]

theorem step_of_faulted (k : FaultKind) (faulted : s.run = .faulted k) : step s = .fault (.engineFaulted k) := by
  simp [step, faulted]

theorem step_of_running (running : s.run = .running) : ∃ t, step s = .next t := by
  simp only [step, running]
  cases s.fetch with
  | error k => exact ⟨_, rfl⟩
  | ok w =>
    dsimp only
    cases decode w with
    | invalid op => exact ⟨_, rfl⟩
    | instr i => exact exec_answers_next s i

/-! ## Registers, output log and program counter -/

theorem Effect.readReg (e : Effect i s t) (r : RegIndex) (other : i.destination ≠ some r) :
    t.readReg r = s.readReg r := by
  have ne {q : RegIndex} (dest : i.destination = some q) : r ≠ q := fun eq => other (eq ▸ dest)
  cases e with
  | wrote q v dest | received q v dest => simp [State.readReg_writeReg, ne dest]
  | reused q dest => rw [State.readReg_writeReg, if_neg (ne dest)]; rfl
  | extended b c activate => rw [State.readReg_writeReg, if_neg (ne (activate ▸ rfl))]; rfl
  | _ => rfl

theorem Effect.out (e : Effect i s t) :
    t.out = s.out ∨ ∃ c b, i = .out c ∧ b.toNat = s.regNat c ∧ t.out = s.out ++ [b] := by
  cases e with
  | emitted c out fits => exact .inr ⟨c, _, out, by simp; omega, rfl⟩
  | _ => exact .inl rfl

theorem Effect.pc (e : Effect i s t) : t.pc = s.pc ∨ t.pc = s.pc + 1 ∨ ∃ c, t.pc = s.regNat c := by
  cases e with
  | faulted k => exact .inl rfl
  | jumped c => exact .inr (.inr ⟨c, rfl⟩)
  | replaced b c => exact .inr (.inr ⟨c, rfl⟩)
  | _ => exact .inr (.inl rfl)

/-! ## The Segment Table -/

/-- R21: the slots grow by one at a fresh map and never otherwise. -/
theorem Effect.count (e : Effect i s t) :
    t.mem.count = s.mem.count ∨
      ∃ b c, i = .activate b c ∧ s.mem.free = [] ∧ s.mem.count ≤ Config.handleMax ∧
        t.mem.count = s.mem.count + 1 ∧ t.readReg b = zext32 s.mem.count := by
  cases e with
  | extended b c activate n size free bound => exact .inr ⟨b, c, activate, free, bound, by simp [Memory.count], by simp⟩
  | stored | reused | unmapped | replaced => exact .inl (by simp [Memory.count])
  | _ => exact .inl rfl

/-- What an instruction can do to the segment that handle `h` names. -/
inductive SegmentChange (i : Instr) (s t : State) (h : Nat) : Prop where
  | kept (same : t.mem.segment? h = s.mem.segment? h)
  | stored (a b c : RegIndex) (store : i = .sstore a b c) (j : Nat) (v : Word) (g : Segment) (lt : j < g.len)
      (before : s.mem.segment? h = some g) (after : t.mem.segment? h = some (g.setWord j v))
  | created (n : Nat) (size : n ≤ Config.segmentMax) (unused : h ∈ s.mem.free ∨ s.mem.count ≤ h)
      (after : t.mem.segment? h = some (Segment.zeros n))
  | destroyed (nonzero : h ≠ 0) (after : t.mem.segment? h = none)
  | replaced (b c : RegIndex) (loadp : i = .loadp b c) (zero : h = 0) (h' : Nat) (g : Segment)
      (source : s.mem.segment? h' = some g) (after : t.mem.segment? h = some g)

theorem Effect.segmentChange (e : Effect i s t) (h : Nat) : SegmentChange i s t h := by
  cases e with
  | stored a b c store p j v g mapped lt =>
    have after := State.segment?_setSlot_mapped p s.mem g (g.setWord j v) h mapped
    by_cases eq : h = p
    · exact .stored a b c store j v g lt (eq ▸ mapped) (after.trans (if_pos eq))
    · exact .kept (after.trans (if_neg eq))
  | reused b dest n p rest size free =>
    have after := Memory.segment?_set s.mem.slots rest p h (.mapped (Segment.zeros n))
    by_cases hit : h = p ∧ p < s.mem.slots.length
    · exact .created n size (.inl (by simp [free, hit.1])) (after.trans (if_pos hit))
    · exact .kept (after.trans (if_neg hit))
  | extended b c activate n size =>
    have after := Memory.segment?_append s.mem.slots [] h (.mapped (Segment.zeros n))
    by_cases eq : h = s.mem.slots.length
    · exact .created n size (.inr (Nat.le_of_eq eq.symm)) (after.trans (if_pos eq))
    · exact .kept (after.trans (if_neg eq))
  | unmapped p g nonzero mapped =>
    have after := Memory.segment?_set s.mem.slots (s.mem.free ++ [p]) p h .unmapped
    by_cases hit : h = p ∧ p < s.mem.slots.length
    · exact .destroyed (hit.1 ▸ nonzero) (after.trans (if_pos hit))
    · exact .kept (after.trans (if_neg hit))
  | replaced b c loadp p g mapped =>
    have after := Memory.segment?_set s.mem.slots s.mem.free 0 h (.mapped g)
    by_cases hit : h = 0 ∧ 0 < s.mem.slots.length
    · exact .replaced b c loadp hit.1 p g mapped (after.trans (if_pos hit))
    · exact .kept (after.trans (if_neg hit))
  | _ => exact .kept rfl

/-- R22: a canonical table stays canonical. -/
theorem Effect.canonical (e : Effect i s t) (wf : s.mem.wf = true) : t.mem.wf = true := by
  rw [Memory.wf_iff] at wf ⊢
  intro h g' mapped
  cases e.segmentChange h with
  | kept same => exact wf h g' (same ▸ mapped)
  | stored a b c store j v g lt before after =>
    obtain rfl := Option.some.inj (after.symm.trans mapped)
    exact Segment.setWord_wf g j v (wf h g before) lt
  | created n size unused after =>
    obtain rfl := Option.some.inj (after.symm.trans mapped)
    exact Segment.zeros_wf n size
  | destroyed nonzero after => simp [after] at mapped
  | replaced b c loadp zero h' g source after =>
    obtain rfl := Option.some.inj (after.symm.trans mapped)
    exact wf h' g source

/-- R23: handle 0 is never unmapped; that it is mapped needs no more than that it was. -/
theorem Effect.programMapped (e : Effect i s t) (mapped : (s.mem.segment? 0).isSome = true) :
    (t.mem.segment? 0).isSome = true := by
  cases e.segmentChange 0 with
  | kept same => rwa [same]
  | destroyed nonzero => exact absurd rfl nonzero
  | stored _ _ _ _ _ _ _ _ _ after | created _ _ _ after | replaced _ _ _ _ _ _ _ after => simp [after]

/-- R23: handle 0 never joins the free pool. -/
theorem Effect.zero_not_mem_free (e : Effect i s t) (out : 0 ∉ s.mem.free) : 0 ∉ t.mem.free := by
  cases e with
  | reused b dest n h rest size free => exact fun mem => out (free ▸ List.mem_cons_of_mem h mem)
  | extended => exact List.not_mem_nil
  | unmapped h g nonzero => simpa [nonzero.symm] using out
  | _ => exact out

end

/-! ## The free pool -/

/-- R24: the free pool holds exactly the unmapped handles, each once. -/
structure Memory.PoolExact (m : Memory) : Prop where
  mem_free_iff : ∀ h, h ∈ m.free ↔ m.slots[h]? = some .unmapped
  nodup : m.free.Nodup

/-- The three fields of the invariant that speak of the free pool. -/
theorem State.Inv.poolExact {s : State} (inv : s.Inv) : s.mem.PoolExact where
  mem_free_iff h := ⟨inv.freeUnmapped h, fun e => inv.unmappedFree h (List.getElem?_eq_some_iff.1 e).1 e⟩
  nodup := inv.freeNodup

section
variable {m : Memory} {h : Nat} {rest : List Nat} {g : Segment}

theorem Memory.segment?_of_unmapped (unmapped : m.slots[h]? = some .unmapped) : m.segment? h = none := by
  simp [Memory.segment?, unmapped]

/-- A written slot is unmapped afterwards only if `.unmapped` was written into it. -/
theorem getElem?_set_unmapped (slots : List Slot) (h j : Nat) (x : Slot) (lt : h < slots.length) :
    (slots.set h x)[j]? = some .unmapped ↔ if j = h then x = .unmapped else slots[j]? = some .unmapped := by
  rw [List.getElem?_set]
  by_cases eq : j = h
  · simp [eq, lt]
  · simp [eq, Ne.symm eq]

namespace Memory.PoolExact

/-- A mapped slot that is given another segment changes nothing for the pool. -/
theorem setSlot (pool : m.PoolExact) (mapped : m.segment? h = some g) (g' : Segment) :
    (m.setSlot h (.mapped g')).PoolExact where
  mem_free_iff j := by
    have before := (Memory.segment?_eq_some m h g).1 mapped
    rw [Memory.setSlot_free, Memory.setSlot_slots, pool.mem_free_iff,
      getElem?_set_unmapped _ _ _ _ (Memory.lt_count_of_segment? m h g mapped)]
    by_cases eq : j = h <;> simp [eq, before]
  nodup := pool.nodup

/-- R37: the oldest free handle leaves the pool and its slot is mapped. -/
theorem reuse (pool : m.PoolExact) (free : m.free = h :: rest) (g : Segment) :
    Memory.PoolExact { slots := m.slots.set h (.mapped g), free := rest } := by
  obtain ⟨mem_free_iff, nodup⟩ := pool
  rw [free] at mem_free_iff nodup
  obtain ⟨notMem, nodup⟩ := List.nodup_cons.1 nodup
  have unmapped := (mem_free_iff h).1 List.mem_cons_self
  refine ⟨fun j => ?_, nodup⟩
  rw [getElem?_set_unmapped _ _ _ _ (List.getElem?_eq_some_iff.1 unmapped).1, ← mem_free_iff]
  by_cases eq : j = h <;> simp [eq, notMem]

/-- R37: a fresh slot is mapped, and the pool stays empty. -/
theorem extend (pool : m.PoolExact) (free : m.free = []) (g : Segment) :
    Memory.PoolExact { slots := m.slots ++ [.mapped g], free := [] } where
  mem_free_iff j := by
    rw [← free, pool.mem_free_iff, List.getElem?_append]
    split
    · rfl
    · rename_i ge
      simp [List.getElem?_eq_none (Nat.le_of_not_lt ge), List.getElem?_singleton]
  nodup := List.nodup_nil

/-- R38: the handle of a destroyed segment joins the pool. -/
theorem unmap (pool : m.PoolExact) (mapped : m.segment? h = some g) :
    Memory.PoolExact { slots := m.slots.set h .unmapped, free := m.free ++ [h] } := by
  have notMem : h ∉ m.free := fun mem => by
    simp [Memory.segment?_of_unmapped ((pool.mem_free_iff h).1 mem)] at mapped
  refine ⟨fun j => ?_, pool.nodup.append (List.nodup_singleton h) (by simpa using notMem)⟩
  rw [getElem?_set_unmapped _ _ _ _ (Memory.lt_count_of_segment? m h g mapped), List.mem_append,
    pool.mem_free_iff, List.mem_singleton]
  by_cases eq : j = h <;> simp [eq]

end Memory.PoolExact

/-- R24. LOADP overwrites slot 0, so it leaves the pool exact only because handle 0 was mapped (R23). -/
theorem Effect.poolExact {i : Instr} {s t : State} (e : Effect i s t) (pool : s.mem.PoolExact)
    (program : (s.mem.segment? 0).isSome = true) : t.mem.PoolExact := by
  cases e with
  | stored a b c store h j v g mapped => exact pool.setSlot mapped _
  | reused b dest n h rest size free => exact pool.reuse free _
  | extended b c activate n size free => exact pool.extend free _
  | unmapped h g nonzero mapped => exact pool.unmap mapped
  | replaced b c loadp h g =>
    obtain ⟨g₀, mapped⟩ := Option.isSome_iff_exists.1 program
    exact pool.setSlot mapped g
  | _ => exact pool

end

/-! ## The invariant -/

section
variable {i : Instr} {s t : State}

theorem State.Inv.of_poolExact (canonical : s.mem.wf = true) (program : (s.mem.segment? 0).isSome = true)
    (count : s.mem.count ≤ Config.handleMax + 1) (pool : s.mem.PoolExact) (pc : s.pc ≤ 2 ^ 32 - 1) : s.Inv :=
  ⟨canonical, program, count, fun h => (pool.mem_free_iff h).1, fun h _ => (pool.mem_free_iff h).2, pool.nodup, pc⟩

/-- R95: the fault kind is no part of the invariant. -/
theorem State.Inv.enterFault (inv : s.Inv) (k : FaultKind) : (s.enterFault k).Inv :=
  ⟨inv.canonical, inv.programMapped, inv.countBound, inv.freeUnmapped, inv.unmappedFree, inv.freeNodup, inv.pcBound⟩

/-- R19, R70: a fetch that answers leaves room for the advance, since segment 0 has at most 2^32 - 1 words. -/
theorem State.Inv.advance_le (inv : s.Inv) {w : Word} (fetch : s.fetch = .ok w) : s.pc + 1 ≤ 2 ^ 32 - 1 := by
  obtain ⟨g, program, lt, -⟩ := (State.segRead_ok_iff s 0 s.pc w).1 fetch
  have len : g.len ≤ 2 ^ 32 - 1 := ((Segment.wf_iff g).1 (Memory.segment_wf _ 0 g inv.canonical program)).1
  omega

theorem Effect.inv (e : Effect i s t) (inv : s.Inv) (room : s.pc + 1 ≤ 2 ^ 32 - 1) : t.Inv := by
  refine .of_poolExact (e.canonical inv.canonical) (e.programMapped inv.programMapped) ?_
    (e.poolExact inv.poolExact inv.programMapped) ?_
  · have old := inv.countBound
    obtain same | ⟨-, -, -, -, bound, grown, -⟩ := e.count <;> omega
  · obtain same | advanced | ⟨c, target⟩ := e.pc
    · omega
    · omega
    · have := s.regNat_lt c
      omega

end

/-- Settles O17: fault entry keeps the invariant, and an instruction keeps it because its own fetch bounds the advance. -/
theorem stepKeepsInvariant : Obligations.StepKeepsInvariant := by
  intro s t inv next
  obtain ⟨k, rfl⟩ | ⟨w, i, fetch, -, run⟩ := step_next_cases next
  · exact inv.enterFault k
  · exact (exec_effect run).inv inv (inv.advance_le fetch)

end Sys2Proof.Machine
end

section
/-! PROOF. The statements of 10_state.md about steps: when one exists, and the frames of registers, output log and
Segment Table. -/

namespace Sys2Proof.Machine

/-! ## When a step exists (R25) -/

/-- Settles O10. -/
theorem stepsExactlyWhileRunning : Obligations.StepsExactlyWhileRunning := by
  intro s
  refine ⟨step_of_running, fun ⟨t, next⟩ => ?_⟩
  cases run : s.run with
  | running => rfl
  | halted => simp [step_of_halted run] at next
  | faulted k => simp [step_of_faulted k run] at next

/-- Settles O11. -/
theorem endedRunAnswersItsFault : Obligations.EndedRunAnswersItsFault :=
  fun _ => ⟨step_of_halted, step_of_faulted⟩

/-! ## Registers and output log (R17, R28) -/

theorem State.regNat_writeReg_wrap32 (s : State) (a : RegIndex) (n : Nat) :
    (s.writeReg a (wrap32 n)).regNat a = n % 2 ^ 32 := by
  simp [State.regNat, wrap32]

/-- Settles O18: the frame is that of the instruction's effect, the sum and the product are the words written. -/
theorem registersWrittenOnlyByTheirRules : Obligations.RegistersWrittenOnlyByTheirRules := by
  refine ⟨fun i s t r run other => (exec_effect run).readReg r other, fun a b c s t run => ?_, fun a b c s t run => ?_⟩
  · rw [(exec_add_iff a b c s t).1 run, State.regNat_writeReg_wrap32]
  · rw [(exec_mul_iff a b c s t).1 run, State.regNat_writeReg_wrap32]

theorem Effect.out_prefix {i : Instr} {s t : State} (e : Effect i s t) : s.out <+: t.out := by
  obtain same | ⟨-, b, -, -, appended⟩ := e.out
  · exact same ▸ List.prefix_rfl
  · exact appended ▸ List.prefix_append s.out [b]

/-- Settles O21. -/
theorem outputLogGrowsOnlyByOut : Obligations.OutputLogGrowsOnlyByOut :=
  ⟨rfl, fun _ _ _ run => (exec_effect run).out,
    fun s _ next => step_induction (P := fun t => s.out <+: t.out) next (fun _ => List.prefix_rfl)
      fun _ run => (exec_effect run).out_prefix⟩

/-! ## The Segment Table (R21, R22, R23) -/

theorem zext32_toNat_of_le_handleMax (n : Nat) (bound : n ≤ Config.handleMax) : (zext32 n).toNat = n :=
  Nat.mod_eq_of_lt (Nat.lt_of_le_of_lt bound (by decide))

/-- Settles O22: the fresh handle, the old count, fits a register because it is at most HANDLE_MAX. -/
theorem segmentCountNeverDecreases : Obligations.SegmentCountNeverDecreases := by
  refine ⟨fun i s t run => ?_, fun s t next =>
    step_induction (P := fun t => s.mem.count ≤ t.mem.count) next (fun _ => Nat.le_refl _) fun i run => ?_⟩
  · obtain same | ⟨b, c, activate, free, bound, grown, handle⟩ := (exec_effect run).count
    · exact .inl same
    · exact .inr ⟨b, c, activate, free, grown, by rw [State.regNat, handle, zext32_toNat_of_le_handleMax _ bound]⟩
  · obtain same | ⟨-, -, -, -, -, grown, -⟩ := (exec_effect run).count <;> omega

/-- A handle that a map may return names no segment (R24). -/
theorem State.Inv.segment?_of_unused {s : State} {h : Nat} (inv : s.Inv)
    (unused : h ∈ s.mem.free ∨ s.mem.count ≤ h) : s.mem.segment? h = none := by
  obtain free | beyond := unused
  · exact Memory.segment?_of_unmapped (inv.freeUnmapped h free)
  · exact Memory.segment?_eq_none_of_le s.mem h beyond

/-- R22: what is left of a segment that is mapped before and after. -/
theorem SegmentChange.of_mapped {i : Instr} {s t : State} {h : Nat} {g g' : Segment}
    (change : SegmentChange i s t h) (inv : s.Inv)
    (before : s.mem.segment? h = some g) (after : t.mem.segment? h = some g')
    (other : h ≠ 0 ∨ ∀ b c, i ≠ .loadp b c) :
    g'.len = g.len ∧ ((∀ a b c, i ≠ .sstore a b c) → g' = g) := by
  cases change with
  | kept same =>
    obtain rfl : g = g' := by simpa [before, after] using same.symm
    exact ⟨rfl, fun _ => rfl⟩
  | stored a b c store j v g₀ lt was is =>
    obtain rfl : g₀ = g := by simpa [before] using was.symm
    obtain rfl : g' = g₀.setWord j v := by simpa [after] using is
    exact ⟨rfl, fun noStore => absurd store (noStore a b c)⟩
  | created n size unused => simp [inv.segment?_of_unused unused] at before
  | destroyed nonzero gone => simp [gone] at after
  | replaced b c loadp zero => exact other.elim (absurd zero) fun noLoadp => absurd loadp (noLoadp b c)

/-- R22: a segment that is mapped after but not before holds zeros, since segment 0 is mapped all along. -/
theorem SegmentChange.of_unmapped {i : Instr} {s t : State} {h : Nat} {g' : Segment}
    (change : SegmentChange i s t h) (inv : s.Inv)
    (before : s.mem.segment? h = none) (after : t.mem.segment? h = some g') (j : Nat) : g'.word j = 0#32 := by
  cases change with
  | kept same => simp [before, after] at same
  | stored a b c store j v g lt was => simp [before] at was
  | created n size unused is =>
    obtain rfl : g' = Segment.zeros n := by simpa [after] using is
    exact Segment.zeros_word n j
  | destroyed nonzero gone => simp [gone] at after
  | replaced b c loadp zero =>
    have program := inv.programMapped
    simp [← zero, before] at program

/-- Settles O23, handle by handle. -/
theorem segmentsKeepTheirLength : Obligations.SegmentsKeepTheirLength := fun _ _ _ inv run =>
  ⟨fun h _ _ => ((exec_effect run).segmentChange h).of_mapped inv,
    fun h _ => ((exec_effect run).segmentChange h).of_unmapped inv⟩

/-- R69: when a fetch answers, and with which word. -/
theorem State.fetch_ok_iff {s : State} {g : Segment} {w : Word} (program : s.mem.segment? 0 = some g) :
    s.fetch = .ok w ↔ s.pc < g.len ∧ w = g.word s.pc := by
  rw [State.fetch, State.segRead_ok_iff, program]
  simp [eq_comm]

/-- Settles O24. -/
theorem segmentZeroStaysMapped : Obligations.SegmentZeroStaysMapped := by
  refine ⟨fun ws => ⟨rfl, List.not_mem_nil⟩, fun s t mapped out next => ?_, fun s g w => State.fetch_ok_iff⟩
  exact step_induction (P := fun u => (u.mem.segment? 0).isSome = true ∧ 0 ∉ u.mem.free) next
    (fun _ => ⟨mapped, out⟩)
    fun i run => ⟨(exec_effect run).programMapped mapped, (exec_effect run).zero_not_mem_free out⟩

end Sys2Proof.Machine
end

section
/-! PROOF. The statements of 10_state.md about the state before the first fetch, the data of a segment, the loader and
the termination status. -/

namespace Sys2Proof.Machine

/-! ## The state before the first fetch (R18, R33) -/

theorem State.reset_readReg (r : RegIndex) : State.reset.readReg r = 0#32 := by
  simp [State.readReg, State.reset]

/-- Settles O14: the loader leaves the registers as they are at reset. -/
theorem registersAreZeroAtReset : Obligations.RegistersAreZeroAtReset :=
  fun _ r => ⟨State.reset_readReg r, State.reset_readReg r⟩

theorem State.boot_segment?_zero (ws : List Word) : (State.boot ws).mem.segment? 0 = some (Segment.ofWords ws) := rfl

theorem State.boot_wordAt_zero (ws : List Word) (j : Nat) : (State.boot ws).wordAt 0 j = ws[j]? := by
  rw [State.wordAt_eq, State.boot_segment?_zero]
  by_cases lt : j < ws.length
  · simp [Segment.ofWords_word, lt]
  · simp [lt]

/-- Settles O15. -/
theorem bootStateHoldsTheProgram : Obligations.BootStateHoldsTheProgram :=
  ⟨rfl, fun ws => ⟨rfl, rfl, rfl, rfl, rfl,
    Memory.progLen_of_segment? _ _ (State.boot_segment?_zero ws), State.boot_wordAt_zero ws⟩⟩

theorem Memory.ofProgram_poolExact (ws : List Word) : (Memory.ofProgram ws).PoolExact where
  mem_free_iff h := by cases h <;> simp [Memory.ofProgram]
  nodup := List.nodup_nil

theorem State.boot_inv (ws : List Word) (short : ws.length ≤ Config.programMax) : (State.boot ws).Inv :=
  .of_poolExact (Memory.ofProgram_wf ws short) rfl (Nat.le_add_left 1 _) (Memory.ofProgram_poolExact ws) (Nat.zero_le _)

/-- Settles O16: the reset state is that of the empty program. -/
theorem bootMeetsInvariant : Obligations.BootMeetsInvariant :=
  ⟨State.boot_inv [] (Nat.zero_le _), State.boot_inv⟩

/-! ## The sparse form of a segment (log entry 13) -/

theorem cellsGet_above (cells : List (Nat × Word)) (lo hi j : Nat) (canonical : cellsCanonical lo hi cells = true)
    (above : hi ≤ j) : cellsGet cells j = 0#32 := by
  induction cells generalizing lo with
  | nil => rfl
  | cons head rest ih =>
    obtain ⟨k, w⟩ := head
    simp only [cellsCanonical, Bool.and_eq_true, decide_eq_true_eq] at canonical
    obtain ⟨⟨⟨-, lt⟩, -⟩, canonical⟩ := canonical
    rw [cellsGet, if_neg (by omega)]
    exact ih (k + 1) canonical

/-- A canonical segment lists no word at or beyond its length. -/
theorem Segment.word_above (g : Segment) (j : Nat) (wf : g.wf = true) (above : g.len ≤ j) : g.word j = 0#32 :=
  cellsGet_above g.cells 0 g.len j ((Segment.wf_iff g).1 wf).2 above

/-- Settles O53: the words agree below the length by hypothesis and are 0 above it, and canonical cells that read the
same everywhere are equal. -/
theorem equalWordsAreEqualSegments : Obligations.EqualWordsAreEqualSegments := by
  intro g g' wf wf' len words
  have everywhere (j : Nat) : g.word j = g'.word j := by
    by_cases lt : j < g.len
    · exact words j lt
    · rw [g.word_above j wf (by omega), g'.word_above j wf' (by omega)]
  obtain ⟨n, cells⟩ := g
  obtain ⟨n', cells'⟩ := g'
  obtain rfl : n = n' := len
  rw [cells_ext cells cells' 0 n ((Segment.wf_iff _).1 wf).2 ((Segment.wf_iff _).1 wf').2 everywhere]

/-! ## The loader (R27, R109) -/

theorem wordOfBytes_toNat (b3 b2 b1 b0 : Byte) : (wordOfBytes b3 b2 b1 b0).toNat =
    b3.toNat * 2 ^ 24 + b2.toNat * 2 ^ 16 + b1.toNat * 2 ^ 8 + b0.toNat := by
  have append {n : Nat} (x : BitVec n) (y : Byte) : (x ++ y).toNat = x.toNat * 2 ^ 8 + y.toNat := by
    rw [BitVec.toNat_append, ← Nat.shiftLeft_add_eq_or_of_lt y.isLt, Nat.shiftLeft_eq]
  simp only [wordOfBytes, append]
  omega

theorem wordOfBytes_bytes (w : Word) :
    wordOfBytes (w.extractLsb' 24 8) (w.extractLsb' 16 8) (w.extractLsb' 8 8) (w.extractLsb' 0 8) = w := by
  have := w.isLt
  apply BitVec.eq_of_toNat_eq
  simp only [wordOfBytes_toNat, BitVec.extractLsb'_toNat, Nat.shiftRight_eq_div_pow]
  omega

theorem wordsOfFile_flatMap_bytesOfWord (ws : List Word) : wordsOfFile (ws.flatMap bytesOfWord) = .ok ws := by
  induction ws with
  | nil => rfl
  | cons w rest ih => simp [bytesOfWord, wordsOfFile, wordOfBytes_bytes, ih]

theorem wordsOfFile_of_ragged : ∀ bs : List Byte, bs.length % 4 ≠ 0 →
    wordsOfFile bs = .error .fileLengthNotMultipleOf4
  | [], ragged => absurd rfl ragged
  | [_], _ | [_, _], _ | [_, _, _], _ => rfl
  | _ :: _ :: _ :: _ :: rest, ragged => by
    have refused := wordsOfFile_of_ragged rest (by simp only [List.length_cons] at ragged; omega)
    simp [wordsOfFile, refused]

/-- Settles O54. -/
theorem programFilesAreMostSignificantByteFirst : Obligations.ProgramFilesAreMostSignificantByteFirst :=
  ⟨wordOfBytes_toNat, wordsOfFile_flatMap_bytesOfWord, wordsOfFile_of_ragged⟩

/-- Settles O55: PROGRAM_MAX is 2^32 - 1. -/
theorem loaderRefusesOnlyLongPrograms : Obligations.LoaderRefusesOnlyLongPrograms :=
  fun _ => ⟨fun short => if_pos short, fun long => if_neg (Nat.not_le.2 long)⟩

/-! ## The termination status (R31) -/

/-- Settles O56: the status names each run state once. -/
theorem statusReportsHowTheRunEnded : Obligations.StatusReportsHowTheRunEnded := by
  intro s
  unfold State.status
  cases s.run <;> simp

end Sys2Proof.Machine
end

section
/-! PROOF. The statements of 20_memory.md: which instructions reach memory, what the four instructions that change it
do to the Segment Table and the free pool, and what a later fetch sees of that. -/

namespace Sys2Proof.Machine

/-! ## Instructions that do not reach memory (R35) -/

/-- Beside the five instructions that reach it, none reads memory: another memory in its place is carried along. -/
theorem exec_with_mem (i : Instr) (s t : State) (m : Memory) (apart : i.reachesMemory = false)
    (run : exec i s = .next t) : exec i { s with mem := m } = .next { t with mem := m } := by
  cases i with
  | sload | sstore | activate | inactivate | loadp => cases apart
  | cmov a b c =>
    rw [exec_cmov_iff] at run ⊢
    subst run
    by_cases zero : s.readReg c = 0#32
    · rw [if_neg (not_not.2 zero)]
      exact (if_neg (not_not.2 zero)).symm
    · rw [if_pos zero]
      exact (if_pos zero).symm
  | add a b c => exact (exec_add_iff a b c s t).1 run ▸ (exec_add_iff a b c _ _).2 rfl
  | mul a b c => exact (exec_mul_iff a b c s t).1 run ▸ (exec_mul_iff a b c _ _).2 rfl
  | div a b c =>
    rw [exec_div_iff] at run ⊢
    obtain ⟨nonzero, rfl⟩ | ⟨zero, rfl⟩ := run
    · exact .inl ⟨nonzero, rfl⟩
    · exact .inr ⟨zero, rfl⟩
  | nand a b c => exact (exec_nand_iff a b c s t).1 run ▸ (exec_nand_iff a b c _ _).2 rfl
  | halt => exact (exec_halt_iff s t).1 run ▸ (exec_halt_iff _ _).2 rfl
  | out c =>
    rw [exec_out_iff] at run ⊢
    obtain ⟨fits, rfl⟩ | ⟨large, rfl⟩ := run
    · exact .inl ⟨fits, rfl⟩
    · exact .inr ⟨large, rfl⟩
  | inp c => exact (exec_inp_iff c s t).1 run ▸ (exec_inp_iff c _ _).2 rfl
  | lv ia iv => exact (exec_lv_iff ia iv s t).1 run ▸ (exec_lv_iff ia iv _ _).2 rfl

/-- An instruction that carries any memory along carries its own along. -/
theorem exec_mem_of_not_reachesMemory {i : Instr} {s t : State} (apart : i.reachesMemory = false)
    (run : exec i s = .next t) : t.mem = s.mem := by
  have same : t = { t with mem := s.mem } := by
    simpa [run] using exec_with_mem i s t s.mem apart run
  rw [same]

theorem exec_sload_mem {a b c : RegIndex} {s t : State} (run : exec (.sload a b c) s = .next t) : t.mem = s.mem := by
  obtain ⟨g, -, -, rfl⟩ | ⟨-, rfl⟩ | ⟨g, -, -, rfl⟩ := (exec_sload_iff a b c s t).1 run <;> rfl

theorem exec_mem_of_not_changesMemory {i : Instr} {s t : State} (apart : i.changesMemory = false)
    (run : exec i s = .next t) : t.mem = s.mem := by
  cases i with
  | sstore | activate | inactivate | loadp => cases apart
  | sload a b c => exact exec_sload_mem run
  | _ => exact exec_mem_of_not_reachesMemory rfl run

/-- Settles O20: an instruction that does not depend on memory keeps it, and SLOAD only reads it. -/
theorem memoryReachedOnlyByItsInstructions : Obligations.MemoryReachedOnlyByItsInstructions :=
  ⟨fun _ s t apart run => s.memoryKept_of_eq t (exec_mem_of_not_changesMemory apart run), exec_with_mem⟩

/-! ## The four instructions that change memory

For each, one lemma: it faults, or it does to table and pool what its rule says. -/

@[simp] theorem State.hasFaulted_enterFault (s : State) (k : FaultKind) : (s.enterFault k).hasFaulted = true := rfl

/-- R95: an instruction that completed did not enter a fault. -/
theorem of_completed {s t : State} {P : Prop} (completed : t.hasFaulted = false)
    (outcome : (∃ k, t = s.enterFault k) ∨ P) : P := by
  obtain ⟨k, rfl⟩ | completion := outcome
  · simp at completed
  · exact completion

theorem Memory.segment?_setSlot_same (m : Memory) (h : Nat) (g : Segment) (lt : h < m.count) :
    (m.setSlot h (.mapped g)).segment? h = some g :=
  (Memory.segment?_set m.slots m.free h h (.mapped g)).trans (if_pos ⟨rfl, lt⟩)

theorem Memory.segment?_set_other (slots : List Slot) (free free' : List Nat) (h h' : Nat) (x : Slot) (other : h' ≠ h) :
    (Memory.mk (slots.set h x) free').segment? h' = (Memory.mk slots free).segment? h' :=
  (Memory.segment?_set slots free' h h' x).trans (if_neg fun hit => other hit.1)

theorem zext32_regNat (s : State) (r : RegIndex) : zext32 (s.regNat r) = s.readReg r := by
  simp [zext32, State.regNat]

theorem Memory.lt_progLen_iff {m : Memory} {j : Nat} :
    j < m.progLen ↔ ∃ g, m.segment? 0 = some g ∧ j < g.len := by
  unfold Memory.progLen
  cases m.segment? 0 <;> simp

/-- R40, R79. -/
theorem exec_sstore_cases {a b c : RegIndex} {s t : State} (run : exec (.sstore a b c) s = .next t) :
    (∃ k, t = s.enterFault k) ∨
    ∃ g, s.mem.segment? (s.regNat a) = some g ∧ s.regNat b < g.len ∧
      ∀ h, t.mem.segment? h =
        if h = s.regNat a then some (g.setWord (s.regNat b) (s.readReg c)) else s.mem.segment? h := by
  obtain ⟨g, mapped, lt, rfl⟩ | ⟨-, rfl⟩ | ⟨g, -, -, rfl⟩ := (exec_sstore_iff a b c s t).1 run
  · exact .inr ⟨g, mapped, lt, fun h => State.segment?_setSlot_mapped _ s.mem g _ h mapped⟩
  all_goals exact .inl ⟨_, rfl⟩

/-- R37: from `s` to `t` a map took the handle `h` for a new segment of `n` words. -/
structure MapsHandle (s t : State) (n h : Nat) : Prop where
  pool : s.mem.free = h :: t.mem.free ∨
    s.mem.free = [] ∧ h = s.mem.count ∧ s.mem.count ≤ Config.handleMax ∧ t.mem.free = []
  others : ∀ h' ≠ h, t.mem.segment? h' = s.mem.segment? h'
  /-- A free handle outside the table, which no run reaches, would get no slot. -/
  mapped : (h ∈ s.mem.free → h < s.mem.count) → t.mem.segment? h = some (Segment.zeros n)

/-- R37, R86. -/
theorem exec_activate_cases {b c : RegIndex} {s t : State} (run : exec (.activate b c) s = .next t) :
    (∃ k, t = s.enterFault k) ∨ ∃ h, t.readReg b = zext32 h ∧ MapsHandle s t (s.regNat c) h := by
  obtain ⟨-, h, rest, free, rfl⟩ | ⟨-, free, bound, rfl⟩ | ⟨-, rfl⟩ := (exec_activate_iff b c s t).1 run
  · refine .inr ⟨h, State.readReg_writeReg_same .., .inl free, fun h' other => ?_, fun inTable => ?_⟩
    · exact Memory.segment?_set_other s.mem.slots s.mem.free rest h h' _ other
    · have lt : h < s.mem.count := inTable (free ▸ List.mem_cons_self)
      exact (Memory.segment?_set s.mem.slots rest h h _).trans (if_pos ⟨rfl, lt⟩)
  · have after (h' : Nat) := Memory.segment?_append s.mem.slots [] h' (.mapped (Segment.zeros (s.regNat c)))
    refine .inr ⟨s.mem.count, State.readReg_writeReg_same .., .inr ⟨free, rfl, bound, rfl⟩, fun h' other => ?_,
      fun _ => ?_⟩
    · exact (after h').trans (if_neg other)
    · exact (after s.mem.count).trans (if_pos rfl)
  · exact .inl ⟨_, rfl⟩

/-- R38, R87. -/
theorem exec_inactivate_cases {c : RegIndex} {s t : State} (run : exec (.inactivate c) s = .next t) :
    (∃ k, t = s.enterFault k) ∨
    (∃ g, s.mem.segment? (s.regNat c) = some g) ∧ s.registersKept t ∧ t.mem.free = s.mem.free ++ [s.regNat c] ∧
      ∀ h ≠ s.regNat c, t.mem.segment? h = s.mem.segment? h := by
  obtain ⟨-, mapped, rfl⟩ | ⟨-, rfl⟩ | ⟨-, -, rfl⟩ | ⟨-, -, -, rfl⟩ := (exec_inactivate_iff c s t).1 run
  · exact .inr ⟨mapped, fun _ => rfl, rfl, fun h other => Memory.segment?_set_other _ s.mem.free _ _ h _ other⟩
  all_goals exact .inl ⟨_, rfl⟩

/-- R41, R90: segment 0 becomes the segment that register B names, which for handle 0 is segment 0 itself. -/
theorem exec_loadp_cases {b c : RegIndex} {s t : State} (run : exec (.loadp b c) s = .next t) :
    (∃ k, t = s.enterFault k) ∨
    ∃ g, s.mem.segment? (s.regNat b) = some g ∧ s.regNat c < g.len ∧ t.pc = s.regNat c ∧
      t.mem.segment? 0 = some g ∧ ∀ h ≠ 0, t.mem.segment? h = s.mem.segment? h := by
  obtain ⟨zero, -, lt, rfl⟩ | ⟨-, g, mapped, -, lt, rfl⟩ | ⟨-, rfl⟩ | ⟨-, -, rfl⟩ | ⟨-, -, -, rfl⟩ | ⟨-, -, rfl⟩ :=
    (exec_loadp_iff b c s t).1 run
  · obtain ⟨g, program, lt⟩ := Memory.lt_progLen_iff.1 lt
    exact .inr ⟨g, zero ▸ program, lt, rfl, program, fun _ _ => rfl⟩
  · have pos : 0 < s.mem.count := Nat.zero_lt_of_lt (Memory.lt_count_of_segment? _ _ g mapped)
    exact .inr ⟨g, mapped, lt, rfl, Memory.segment?_setSlot_same _ 0 g pos,
      fun h other => Memory.segment?_set_other _ s.mem.free _ _ h _ other⟩
  all_goals exact .inl ⟨_, rfl⟩

/-! ## Fetches after a change of segment 0 (R54, R55) -/

theorem State.fetch_setPc {s : State} {g : Segment} (program : s.mem.segment? 0 = some g) (i : Nat) :
    (s.setPc i).fetch = if i < g.len then .ok (g.word i) else .error .wordIndexOutOfRange := by
  rw [State.fetch, State.segRead, State.setPc_mem, program]
  rfl

theorem step_of_decoded {s : State} {w : Word} {i : Instr} (running : s.run = .running) (fetch : s.fetch = .ok w)
    (decoded : decode w = .instr i) : step s = exec i s := by
  simp [step, running, fetch, decoded]

/-- Settles O48: segment 0 keeps its length and every word but the stored one, and what a step runs is fixed by its
fetch. -/
theorem storedWordIsFetched : Obligations.StoredWordIsFetched := by
  refine ⟨fun a b c s t wf zero run completed => ?_, fun a b c s w running fetch decoded _ _ =>
    step_of_decoded running fetch decoded⟩
  obtain ⟨g, program, lt, after⟩ := of_completed completed (exec_sstore_cases run)
  rw [zero] at program after
  have word (j : Nat) := g.word_setWord (s.regNat b) j (s.readReg c) (Memory.segment_wf _ 0 g wf program)
  have fetch (j : Nat) := State.fetch_setPc ((after 0).trans (if_pos rfl)) j
  refine ⟨?_, fun j other => ?_⟩
  · rw [fetch, Segment.setWord_len, if_pos lt, word, if_pos rfl]
  · rw [fetch, Segment.setWord_len, word, if_neg other, State.fetch_setPc program]

/-- Settles O49. -/
theorem loadpIsSeenWholeByTheNextFetch : Obligations.LoadpIsSeenWholeByTheNextFetch := by
  intro b c s t run completed
  obtain ⟨g, source, lt, pc, program, -⟩ := of_completed completed (exec_loadp_cases run)
  exact ⟨g, source, program, (State.fetch_ok_iff program).2 ⟨pc ▸ lt, congrArg g.word pc.symm⟩⟩

/-! ## Segment storage (R46) -/

theorem exec_sstore_segment?_other {a b c : RegIndex} {s t : State} {h : Nat} (run : exec (.sstore a b c) s = .next t)
    (other : h ≠ s.regNat a) : t.mem.segment? h = s.mem.segment? h := by
  obtain ⟨k, rfl⟩ | ⟨g, -, -, after⟩ := exec_sstore_cases run
  · rfl
  · exact (after h).trans (if_neg other)

theorem exec_inactivate_segment?_other {c : RegIndex} {s t : State} {h : Nat} (run : exec (.inactivate c) s = .next t)
    (other : h ≠ s.regNat c) : t.mem.segment? h = s.mem.segment? h := by
  obtain ⟨k, rfl⟩ | ⟨-, -, -, others⟩ := exec_inactivate_cases run
  · rfl
  · exact others h other

/-- A store maps no slot and unmaps none. -/
theorem exec_sstore_isSome {a b c : RegIndex} {s t : State} (run : exec (.sstore a b c) s = .next t) (h : Nat) :
    (t.mem.segment? h).isSome = (s.mem.segment? h).isSome := by
  obtain ⟨k, rfl⟩ | ⟨g, mapped, -, after⟩ := exec_sstore_cases run
  · rfl
  · rw [after]
    split
    · rename_i eq
      simp [eq, mapped]
    · rfl
/-- LOADP overwrites slot 0 with a mapped one; where that slot was mapped, it maps and unmaps nothing. -/
theorem exec_loadp_isSome {b c : RegIndex} {s t : State} {h : Nat} (run : exec (.loadp b c) s = .next t)
    (program : h = 0 → (s.mem.segment? 0).isSome = true) : (t.mem.segment? h).isSome = (s.mem.segment? h).isSome := by
  obtain ⟨k, rfl⟩ | ⟨g, -, -, -, new, others⟩ := exec_loadp_cases run
  · rfl
  · by_cases zero : h = 0
    · rw [zero, program zero, new, Option.isSome_some]
    · rw [others h zero]

/-- Which handles name a segment changes only by INACTIVATE of a mapped handle and by ACTIVATE, which unmaps none. -/
theorem exec_isSome_cases {i : Instr} {s t : State} {h : Nat} (run : exec i s = .next t)
    (program : h = 0 → (s.mem.segment? 0).isSome = true) :
    (t.mem.segment? h).isSome = (s.mem.segment? h).isSome ∨
    (∃ c, i = .inactivate c ∧ s.regNat c = h ∧ (s.mem.segment? h).isSome = true) ∨
    (∃ b c, i = .activate b c ∧ t.regNat b = h % 2 ^ 32 ∧
      ((s.mem.segment? h).isSome = true → (t.mem.segment? h).isSome = true)) := by
  cases i with
  | sstore a b c => exact .inl (exec_sstore_isSome run h)
  | loadp b c => exact .inl (exec_loadp_isSome run program)
  | inactivate c =>
    obtain ⟨k, rfl⟩ | ⟨⟨g, mapped⟩, -, -, others⟩ := exec_inactivate_cases run
    · exact .inl rfl
    by_cases eq : h = s.regNat c
    · exact .inr (.inl ⟨c, rfl, eq.symm, by rw [eq, mapped, Option.isSome_some]⟩)
    · exact .inl (congrArg Option.isSome (others h eq))
  | activate b c =>
    obtain ⟨k, rfl⟩ | ⟨h', returned, maps⟩ := exec_activate_cases run
    · exact .inl rfl
    by_cases eq : h = h'
    · subst eq
      refine .inr (.inr ⟨b, c, rfl, congrArg BitVec.toNat returned, fun before => ?_⟩)
      obtain ⟨g, mapped⟩ := Option.isSome_iff_exists.1 before
      rw [maps.mapped fun _ => Memory.lt_count_of_segment? _ h g mapped, Option.isSome_some]
    · exact .inl (congrArg Option.isSome (maps.others h eq))
  | _ => exact .inl (by rw [exec_mem_of_not_changesMemory rfl run])

theorem inactivate_of_segment?_destroyed {i : Instr} {s t : State} {h : Nat} (run : exec i s = .next t)
    (before : (s.mem.segment? h).isSome = true) (after : t.mem.segment? h = none) :
    ∃ c, i = .inactivate c ∧ s.regNat c = h := by
  obtain same | ⟨c, inactivate, handle, -⟩ | ⟨-, -, -, -, keeps⟩ := exec_isSome_cases run (· ▸ before)
  · simp [before, after] at same
  · exact ⟨c, inactivate, handle⟩
  · simpa [after] using keeps before

theorem activate_of_segment?_created {i : Instr} {s t : State} {h : Nat} (program : (s.mem.segment? 0).isSome = true)
    (run : exec i s = .next t) (before : s.mem.segment? h = none) (after : (t.mem.segment? h).isSome = true) :
    ∃ b c, i = .activate b c ∧ t.regNat b = h % 2 ^ 32 := by
  obtain same | ⟨-, -, -, mapped⟩ | ⟨b, c, activate, handle, -⟩ :=
    exec_isSome_cases (h := h) run fun _ => program
  · simp [before, after] at same
  · simp [before] at mapped
  · exact ⟨b, c, activate, handle⟩

/-- Segment 0 after a LOADP is a copy: the source's handle is not 0, and a store or unmapping touches one handle only. -/
theorem loadp_copy_kept {b c : RegIndex} {s t u : State} {j : Instr} (load : exec (.loadp b c) s = .next t)
    (completed : t.hasFaulted = false) (nonzero : s.regNat b ≠ 0)
    (source : (∃ p q r, j = .sstore p q r ∧ t.regNat p = s.regNat b) ∨ ∃ r, j = .inactivate r ∧ t.regNat r = s.regNat b)
    (run : exec j t = .next u) : u.mem.segment? 0 = s.mem.segment? (s.regNat b) := by
  obtain ⟨g, mapped, -, -, program, -⟩ := of_completed completed (exec_loadp_cases load)
  rw [mapped, ← program]
  obtain ⟨p, q, r, rfl, handle⟩ | ⟨r, rfl, handle⟩ := source
  · exact exec_sstore_segment?_other run (handle ▸ nonzero.symm)
  · exact exec_inactivate_segment?_other run (handle ▸ nonzero.symm)

theorem State.teardown_segment? (s : State) (h : Nat) : s.teardown.mem.segment? h = none :=
  Memory.segment?_eq_none_of_le _ h (Nat.zero_le h)

/-- Settles O50. -/
theorem segmentStorageIsNeverShared : Obligations.SegmentStorageIsNeverShared :=
  ⟨fun _ _ _ _ => inactivate_of_segment?_destroyed, fun _ _ _ _ => activate_of_segment?_created,
    fun _ _ _ _ _ _ => exec_sstore_segment?_other, fun _ _ _ _ _ _ => loadp_copy_kept, State.teardown_segment?⟩

/-! ## Handles (R44) -/

/-- R37: a completed ACTIVATE takes the head of a pool that is not empty. -/
theorem activate_takes_oldest {b c : RegIndex} {s t : State} {h : Nat} {rest : List Nat}
    (run : exec (.activate b c) s = .next t) (completed : t.hasFaulted = false) (free : s.mem.free = h :: rest) :
    t.readReg b = zext32 h ∧ t.mem.free = rest := by
  obtain ⟨h', returned, maps⟩ := of_completed completed (exec_activate_cases run)
  obtain pool | ⟨empty, -⟩ := maps.pool
  · obtain ⟨rfl, rfl⟩ := List.cons.inj (free.symm.trans pool)
    exact ⟨returned, rfl⟩
  · simp [empty] at free

/-- Settles O51: the pool is a queue, and no INACTIVATE writes the register that holds the other handle. -/
theorem oldestFreedHandleComesBackFirst : Obligations.OldestFreedHandleComesBackFirst := by
  intro c1 c2 b1 d1 b2 d2 s s1 s2 s3 s4 empty run1 completed1 run2 completed2 run3 completed3 run4 completed4
  obtain ⟨-, registers, pool1, -⟩ := of_completed completed1 (exec_inactivate_cases run1)
  obtain ⟨-, -, pool2, -⟩ := of_completed completed2 (exec_inactivate_cases run2)
  have second : s1.regNat c2 = s.regNat c2 := congrArg BitVec.toNat (registers c2)
  have queue : s2.mem.free = [s.regNat c1, s.regNat c2] := by
    rw [pool2, pool1, empty, second]
    rfl
  obtain ⟨returned1, pool3⟩ := activate_takes_oldest run3 completed3 queue
  obtain ⟨returned2, pool4⟩ := activate_takes_oldest run4 completed4 pool3
  exact ⟨returned1.trans (zext32_regNat s c1), returned2.trans (zext32_regNat s c2), pool4⟩

/-- In a state of the invariant the handle of a map is unused and fits a register. -/
theorem MapsHandle.unused {s t : State} {n h : Nat} (maps : MapsHandle s t n h) (inv : s.Inv) :
    s.mem.segment? h = none ∧ h ≤ Config.handleMax := by
  obtain pool | ⟨-, rfl, bound, -⟩ := maps.pool
  · have free : h ∈ s.mem.free := pool ▸ List.mem_cons_self
    have lt : h < s.mem.count := (List.getElem?_eq_some_iff.1 (inv.freeUnmapped h free)).1
    have count := inv.countBound
    exact ⟨inv.segment?_of_unused (.inl free), by omega⟩
  · exact ⟨inv.segment?_of_unused (.inr (Nat.le_refl _)), bound⟩

/-- R24: a mapped handle is not in the free pool. -/
theorem Memory.PoolExact.not_mem_free {m : Memory} {h : Nat} {g : Segment} (pool : m.PoolExact)
    (mapped : m.segment? h = some g) : h ∉ m.free := fun free => by
  simp [Memory.segment?_of_unmapped ((pool.mem_free_iff h).1 free)] at mapped

/-- Settles O52: the handle was unused, so it is not 0, which names segment 0; it is mapped now, and the pool is still
exact. -/
theorem mapReturnsNoLiveHandle : Obligations.MapReturnsNoLiveHandle := by
  intro b c s t inv run completed
  obtain ⟨h, returned, maps⟩ := of_completed completed (exec_activate_cases run)
  obtain ⟨unused, bound⟩ := maps.unused inv
  have mapped := maps.mapped fun free => (List.getElem?_eq_some_iff.1 (inv.freeUnmapped h free)).1
  have pool := (exec_effect run).poolExact inv.poolExact inv.programMapped
  rw [State.regNat, returned, zext32_toNat_of_le_handleMax h bound]
  refine ⟨unused, ?_, Option.isSome_iff_exists.2 ⟨_, mapped⟩, pool.not_mem_free mapped⟩
  rintro rfl
  simpa [unused] using inv.programMapped

/-! ## Teardown (R43) -/

/-- Settles O58: the status and what was produced are read from fields that teardown leaves alone. -/
theorem teardownChangesNothingTheHostReads : Obligations.TeardownChangesNothingTheHostReads :=
  fun s => ⟨rfl, rfl, fun h i => by rw [State.wordAt_eq, State.teardown_segment?], rfl, rfl⟩

end Sys2Proof.Machine
end

section
/-! PROOF. The statements of 30_encoding.md: what the decoder reads in a word, the fields of a packed word, and the two
compositions of decoder and encoder. -/

namespace Sys2Proof

/-! ## What the decoder reads (R57 to R64) -/

/-- The fields `i` uses hold in `w` the operands of `i` (R58, R59, R62). -/
def Instr.ReadsFrom (w : Word) : Instr → Prop
  | .cmov a b c | .sload a b c | .sstore a b c | .add a b c | .mul a b c | .div a b c | .nand a b c =>
    fieldA w = a ∧ fieldB w = b ∧ fieldC w = c
  | .halt => True
  | .activate b c | .loadp b c => fieldB w = b ∧ fieldC w = c
  | .inactivate c | .out c | .inp c => fieldC w = c
  | .lv ia iv => fieldIA w = ia ∧ fieldIV w = iv

/-- R61: the decoder gives `i` exactly for the words with the opcode and the operands of `i`. -/
theorem decode_eq_instr_iff {w : Word} {i : Instr} :
    decode w = .instr i ↔ opcodeOf w = i.opcode ∧ i.ReadsFrom w := by
  constructor
  · intro decoded
    unfold decode at decoded
    split at decoded <;> cases decoded <;> exact ⟨‹_›, by simp [Instr.ReadsFrom]⟩
  · rintro ⟨opcode, fields⟩
    cases i with
    | halt => simp [decode, opcode, Instr.opcode]
    | inactivate | out | inp =>
      cases fields
      simp [decode, opcode, Instr.opcode]
    | activate | loadp | lv =>
      obtain ⟨rfl, rfl⟩ := fields
      simp [decode, opcode, Instr.opcode]
    | _ =>
      obtain ⟨rfl, rfl, rfl⟩ := fields
      simp [decode, opcode, Instr.opcode]

/-- R63, R64: the two cases of the decoder. -/
theorem decode_cases (w : Word) :
    (opcodeOf w ≤ 13 ∧ ∃ i, decode w = .instr i) ∨ (14 ≤ opcodeOf w ∧ decode w = .invalid (opcodeOf w)) := by
  unfold decode
  split
  case h_15 => exact .inr ⟨by grind, rfl⟩
  all_goals exact .inl ⟨by omega, _, rfl⟩

theorem decode_of_le {w : Word} (valid : opcodeOf w ≤ 13) : ∃ i, decode w = .instr i := by
  obtain ⟨-, decoded⟩ | ⟨invalid, -⟩ := decode_cases w
  · exact decoded
  · omega

theorem decode_of_ge {w : Word} (invalid : 14 ≤ opcodeOf w) : decode w = .invalid (opcodeOf w) := by
  obtain ⟨valid, -⟩ | ⟨-, decoded⟩ := decode_cases w
  · omega
  · exact decoded

theorem wf_of_decode {w : Word} {i : Instr} (decoded : decode w = .instr i) : i.wf = true := by
  obtain ⟨-, fields⟩ := decode_eq_instr_iff.1 decoded
  cases i with
  | lv ia iv =>
    obtain ⟨-, rfl⟩ := fields
    exact decide_eq_true (fieldIV_lt w)
  | _ => rfl

theorem step_of_invalid {s : Machine.State} {w : Word} (running : s.run = .running) (fetch : s.fetch = .ok w)
    (invalid : 14 ≤ opcodeOf w) : Machine.step s = .next (s.enterFault .invalidOpcode) := by
  simp [Machine.step, running, fetch, decode_of_ge invalid]

/-- Settles O3: `decode_cases` gives both equivalences, since an instruction is not the invalid case. -/
theorem onlyOpcodes14And15AreInvalid : Obligations.OnlyOpcodes14And15AreInvalid := by
  refine ⟨fun w => ⟨fun invalid => ⟨_, decode_of_ge invalid⟩, ?_⟩, fun w => ⟨fun valid => ?_, ?_⟩,
    fun s w running fetch invalid => ⟨_, step_of_invalid running fetch invalid, s.enterFault_run _⟩⟩
  · rintro ⟨op, decoded⟩
    obtain ⟨-, i, other⟩ | ⟨invalid, -⟩ := decode_cases w
    · simp [decoded] at other
    · exact invalid
  · obtain ⟨i, decoded⟩ := decode_of_le valid
    exact ⟨i, wf_of_decode decoded, decoded⟩
  · rintro ⟨i, -, decoded⟩
    obtain ⟨valid, -⟩ | ⟨-, other⟩ := decode_cases w
    · exact valid
    · simp [decoded] at other

/-- Settles O7: closed words, each evaluated. -/
theorem exampleWordsDecode : Obligations.ExampleWordsDecode := by
  unfold Obligations.ExampleWordsDecode
  decide

/-! ## The bits an instruction reads (R62) -/

/-- How many of the lowest bits an instruction with opcode `op` reads beside the opcode. -/
def operandWidth (op : Nat) : Nat :=
  match op with
  | 0 | 1 | 2 | 3 | 4 | 5 | 6 => 9
  | 8 | 12 => 6
  | 9 | 10 | 11 => 3
  | 13 => 28
  | _ => 0

theorem mod_operandWidth_lt (n op : Nat) : n % 2 ^ operandWidth op < 2 ^ 28 := by
  have width : operandWidth op ≤ 28 := by
    unfold operandWidth
    split <;> decide
  exact (Nat.mod_lt n (Nat.two_pow_pos _)).trans_le (Nat.pow_le_pow_right (by decide) width)

theorem readMask_toNat (op : Nat) : (readMask op).toNat = 15 <<< 28 ||| (2 ^ operandWidth op - 1) := by
  fun_cases readMask op <;> simp [operandWidth, *]

/-- A mask of high bits, applied after moving those bits down. -/
theorem and_shiftLeft (x m k : Nat) : x &&& m <<< k = ((x >>> k) &&& m) <<< k := by
  apply Nat.eq_of_testBit_eq
  intro i
  simp only [Nat.testBit_and, Nat.testBit_shiftLeft, Nat.testBit_shiftRight]
  by_cases le : k ≤ i
  · simp [le, Nat.add_sub_of_le le]
  · simp [le]

/-- Masking keeps the opcode and the lowest bits. -/
theorem and_readMask_toNat (w : Word) (op : Nat) :
    (w &&& readMask op).toNat = opcodeOf w * 2 ^ 28 + w.toNat % 2 ^ operandWidth op := by
  have top : w.toNat &&& 15 <<< 28 = opcodeOf w <<< 28 := by
    rw [and_shiftLeft, show 15 = 2 ^ 4 - 1 from rfl, Nat.and_two_pow_sub_one_eq_mod, Nat.shiftRight_eq_div_pow,
      ← opcodeOf_eq, Nat.mod_eq_of_lt (opcodeOf_lt w)]
  rw [BitVec.toNat_and, readMask_toNat, Nat.and_or_distrib_left, top, Nat.and_two_pow_sub_one_eq_mod,
    ← Nat.shiftLeft_add_eq_or_of_lt (mod_operandWidth_lt _ op), Nat.shiftLeft_eq]

theorem opcodeOf_and_readMask (w : Word) (op : Nat) : opcodeOf (w &&& readMask op) = opcodeOf w := by
  have low := mod_operandWidth_lt w.toNat op
  rw [opcodeOf_eq (w &&& readMask op), and_readMask_toNat]
  omega

theorem opcodeOf_of_masked {w m : Word} (masked : w &&& 0xF0000000#32 = m) : opcodeOf w = opcodeOf m :=
  masked ▸ (opcodeOf_and_readMask w 7).symm

/-- Settles O4: a masked word shows its opcode, and the opcode with the fields fixes the instruction. -/
theorem decodeFollowsOpcodeMap : Obligations.DecodeFollowsOpcodeMap := by
  intro w a b c ia iv eqA eqB eqC eqIA eqIV
  have fA : fieldA w = a := Fin.ext eqA.symm
  have fB : fieldB w = b := Fin.ext eqB.symm
  have fC : fieldC w = c := Fin.ext eqC.symm
  have fIA : fieldIA w = ia := Fin.ext eqIA.symm
  have fIV : fieldIV w = iv := eqIV.symm
  have decoded {m : Word} {i : Instr} (opcode : opcodeOf m = i.opcode) (fields : i.ReadsFrom w)
      (masked : w &&& 0xF0000000#32 = m) : decode w = .instr i :=
    decode_eq_instr_iff.2 ⟨(opcodeOf_of_masked masked).trans opcode, fields⟩
  have abc : fieldA w = a ∧ fieldB w = b ∧ fieldC w = c := ⟨fA, fB, fC⟩
  exact ⟨decoded rfl abc, decoded rfl abc, decoded rfl abc, decoded rfl abc, decoded rfl abc, decoded rfl abc,
    decoded rfl abc, decoded rfl trivial, decoded rfl ⟨fB, fC⟩, decoded rfl fC, decoded rfl fC, decoded rfl fC,
    decoded rfl ⟨fB, fC⟩, decoded rfl ⟨fIA, fIV⟩⟩

/-! ## The fields of a packed word (R65) -/

section
variable (op : Nat) (a b c : RegIndex) (h : op < 16)
include h

theorem fieldA_encodeThree : fieldA (encodeThree op a b c) = a := by
  ext
  rw [fieldA, regField_val, encodeThree_toNat op a b c h]
  omega

theorem fieldB_encodeThree : fieldB (encodeThree op a b c) = b := by
  ext
  rw [fieldB, regField_val, encodeThree_toNat op a b c h]
  omega

theorem fieldC_encodeThree : fieldC (encodeThree op a b c) = c := by
  ext
  rw [fieldC, regField_val, encodeThree_toNat op a b c h]
  omega

theorem encodeThree_unused_bits : (encodeThree op a b c).extractLsb' 9 19 = 0#19 := by
  apply BitVec.eq_of_toNat_eq
  rw [BitVec.extractLsb'_toNat, encodeThree_toNat op a b c h, Nat.shiftRight_eq_div_pow]
  simp only [BitVec.toNat_ofNat]
  omega

end

section
variable (ia : RegIndex) (iv : Nat) (h : iv < 2 ^ 25)
include h

theorem fieldIA_encodeImmediate : fieldIA (encodeImmediate ia iv) = ia := by
  ext
  rw [fieldIA, regField_val, encodeImmediate_toNat ia iv h]
  omega

theorem fieldIV_encodeImmediate : fieldIV (encodeImmediate ia iv) = iv := by
  rw [fieldIV_eq, encodeImmediate_toNat ia iv h]
  omega

end

/-- Settles O1: each field is read off the number a packed word is. -/
theorem codecFieldsRoundTrip : Obligations.CodecFieldsRoundTrip := by
  refine ⟨fun op a b c valid => ?_, fun a v fits =>
    ⟨opcodeOf_encodeImmediate a v fits, fieldIA_encodeImmediate a v fits, fieldIV_encodeImmediate a v fits⟩⟩
  have h : op < 16 := by omega
  exact ⟨opcodeOf_encodeThree op a b c h, fieldA_encodeThree op a b c h, fieldB_encodeThree op a b c h,
    fieldC_encodeThree op a b c h, encodeThree_unused_bits op a b c h⟩

/-! ## Decoder and encoder composed (R62, R65) -/

theorem opcodeOf_encode (i : Instr) (wf : i.wf = true) : opcodeOf (encode i) = i.opcode := by
  cases i with
  | lv ia iv => exact Laws.EncodedOpcode.lv ia iv wf
  | _ => exact opcodeOf_encodeThree _ _ _ _ (by decide)

theorem readsFrom_encode (i : Instr) (wf : i.wf = true) : i.ReadsFrom (encode i) := by
  cases i with
  | halt => trivial
  | inactivate c | out c | inp c => exact fieldC_encodeThree _ _ _ c (by decide)
  | activate b c | loadp b c =>
    exact ⟨fieldB_encodeThree _ _ b c (by decide), fieldC_encodeThree _ _ b c (by decide)⟩
  | lv ia iv =>
    have fits : iv < 2 ^ 25 := of_decide_eq_true wf
    exact ⟨fieldIA_encodeImmediate ia iv fits, fieldIV_encodeImmediate ia iv fits⟩
  | cmov a b c | sload a b c | sstore a b c | add a b c | mul a b c | div a b c | nand a b c =>
    exact ⟨fieldA_encodeThree _ a b c (by decide), fieldB_encodeThree _ a b c (by decide),
      fieldC_encodeThree _ a b c (by decide)⟩

/-- Settles O2: the encoded word holds the opcode and the operands, and those fix what is decoded. -/
theorem decodeEncodeIsIdentity : Obligations.DecodeEncodeIsIdentity :=
  fun i wf => decode_eq_instr_iff.2 ⟨opcodeOf_encode i wf, readsFrom_encode i wf⟩

/-- The register fields of a word, packed with an opcode, are its nine lowest bits under that opcode. -/
theorem encodeThree_fieldsABC_toNat (w : Word) (op : Nat) (h : op < 16) :
    (encodeThree op (fieldA w) (fieldB w) (fieldC w)).toNat = op * 2 ^ 28 + w.toNat % 2 ^ 9 := by
  rw [encodeThree_toNat op _ _ _ h, fieldA, fieldB, fieldC, regField_val, regField_val, regField_val]
  omega

theorem encodeThree_fieldsBC_toNat (w : Word) (op : Nat) (h : op < 16) :
    (encodeThree op 0 (fieldB w) (fieldC w)).toNat = op * 2 ^ 28 + w.toNat % 2 ^ 6 := by
  rw [encodeThree_toNat op _ _ _ h, fieldB, fieldC, regField_val, regField_val]
  simp only [Fin.val_zero]
  omega

theorem encodeThree_fieldC_toNat (w : Word) (op : Nat) (h : op < 16) :
    (encodeThree op 0 0 (fieldC w)).toNat = op * 2 ^ 28 + w.toNat % 2 ^ 3 := by
  rw [encodeThree_toNat op _ _ _ h, fieldC, regField_val]
  simp only [Fin.val_zero]
  omega

theorem encodeImmediate_fields_toNat (w : Word) :
    (encodeImmediate (fieldIA w) (fieldIV w)).toNat = 13 * 2 ^ 28 + w.toNat % 2 ^ 28 := by
  rw [encodeImmediate_toNat _ _ (fieldIV_lt w), fieldIA, regField_val, fieldIV_eq]
  omega

/-- Only the operands' bits of a word reach the encoding of what is read from it. -/
theorem encode_toNat_of_readsFrom {w : Word} {i : Instr} (fields : i.ReadsFrom w) :
    (encode i).toNat = i.opcode * 2 ^ 28 + w.toNat % 2 ^ operandWidth i.opcode := by
  cases i with
  | halt =>
    rw [encode, encodeThree_toNat 7 0 0 0 (by decide)]
    simp only [Instr.opcode, operandWidth, Fin.val_zero, Nat.pow_zero, Nat.mod_one]
  | inactivate c | out c | inp c =>
    obtain rfl := fields
    exact encodeThree_fieldC_toNat w _ (by decide)
  | activate b c | loadp b c =>
    obtain ⟨rfl, rfl⟩ := fields
    exact encodeThree_fieldsBC_toNat w _ (by decide)
  | lv ia iv =>
    obtain ⟨rfl, rfl⟩ := fields
    exact encodeImmediate_fields_toNat w
  | cmov a b c | sload a b c | sstore a b c | add a b c | mul a b c | div a b c | nand a b c =>
    obtain ⟨rfl, rfl, rfl⟩ := fields
    exact encodeThree_fieldsABC_toNat w _ (by decide)

theorem encode_of_decode {w : Word} {i : Instr} (decoded : decode w = .instr i) :
    encode i = w &&& readMask (opcodeOf w) := by
  obtain ⟨opcode, fields⟩ := decode_eq_instr_iff.1 decoded
  apply BitVec.eq_of_toNat_eq
  rw [encode_toNat_of_readsFrom fields, and_readMask_toNat, opcode]

/-- Settles O6: both words are the opcode above the lowest bits that the instruction reads. -/
theorem encodeOfDecodeKeepsReadBits : Obligations.EncodeOfDecodeKeepsReadBits :=
  fun _ _ decoded => ⟨wf_of_decode decoded, encode_of_decode decoded⟩

/-- R62: a word decodes as its canonical form does. -/
theorem decode_and_readMask (w : Word) : decode (w &&& readMask (opcodeOf w)) = decode w := by
  obtain ⟨-, i, decoded⟩ | ⟨invalid, decoded⟩ := decode_cases w
  · rw [← encode_of_decode decoded, decodeEncodeIsIdentity i (wf_of_decode decoded), decoded]
  · rw [decode_of_ge (by rwa [opcodeOf_and_readMask]), opcodeOf_and_readMask, decoded]

/-- Settles O5: both words have one opcode, so one canonical form. -/
theorem ignoredBitsHaveNoEffect : Obligations.IgnoredBitsHaveNoEffect := by
  intro w w' agree
  have opcode : opcodeOf w' = opcodeOf w := by
    rw [← opcodeOf_and_readMask w' (opcodeOf w), ← agree, opcodeOf_and_readMask]
  rw [← decode_and_readMask w', opcode, ← agree, decode_and_readMask]

end Sys2Proof
end

section
/-! PROOF. The statements of 40_fetch_decode_execute.md: the fetch, the dispatch of the fetched word, the program counter
of a completed instruction, and which instructions depend on the host's answers. -/

namespace Sys2Proof.Machine

/-! ## Fetch and dispatch (R69, R72) -/

/-- Settles O8. -/
theorem stepRunsDecodedInstruction : Obligations.StepRunsDecodedInstruction :=
  fun _ _ _ => step_of_decoded

theorem State.fetch_error_of_le {s : State} {g : Segment} (program : s.mem.segment? 0 = some g) (beyond : g.len ≤ s.pc) :
    s.fetch = .error .wordIndexOutOfRange :=
  (s.segRead_error_iff 0 s.pc _).2 (.inr ⟨g, program, beyond, rfl⟩)

/-- R72, R95: a fetch that raises enters its fault. -/
theorem step_of_fetch_error {s : State} {k : FaultKind} (running : s.run = .running) (fetch : s.fetch = .error k) :
    step s = .next (s.enterFault k) := by
  simp [step, running, fetch]

/-- Settles O9. -/
theorem fetchReadsSegmentZeroOrFaults : Obligations.FetchReadsSegmentZeroOrFaults := fun _ _ running program =>
  ⟨fun lt => (State.fetch_ok_iff program).2 ⟨lt, rfl⟩,
    fun beyond => step_of_fetch_error running (State.fetch_error_of_le program beyond)⟩

/-! ## A word placed for the fetch -/

theorem Memory.programOrEmpty_wf {m : Memory} (wf : m.wf = true) : m.programOrEmpty.wf = true := by
  unfold Memory.programOrEmpty
  cases program : m.segment? 0 with
  | none => exact Segment.zeros_wf 0 (Nat.zero_le _)
  | some g => exact m.segment_wf 0 g wf program

/-- The placed word stands at `pc` of a segment 0 made long enough; that it is read back is read after write. -/
theorem State.fetch_placeFetchWord {s : State} (wf : s.mem.wf = true) (w : Word) : (s.placeFetchWord w).fetch = .ok w := by
  refine (State.fetch_ok_iff rfl).2 ⟨lt_max_of_lt_right (Nat.lt_succ_self s.pc), ?_⟩
  have readBack := s.mem.programOrEmpty.word_setWord s.pc s.pc w (Memory.programOrEmpty_wf wf)
  exact (readBack.trans (if_pos rfl)).symm

theorem decode_of_decodeTableWord {n w : Nat} {i : Instr} (row : decodeTableWord n w = some i) :
    decode (BitVec.ofNat 32 (w % 2 ^ n)) = .instr i := by
  unfold decodeTableWord at row
  split at row
  · rename_i decoded
    exact decoded.trans (congrArg Decoded.instr (Option.some.inj row))
  · cases row

/-- Settles O59. -/
theorem placedWordRunsNext : Obligations.PlacedWordRunsNext := fun _ _ _ wf row =>
  step_of_decoded rfl (State.fetch_placeFetchWord wf _) (decode_of_decodeTableWord row)

/-! ## The program counter (R70) -/

/-- R70, R90: an instruction other than LOADP faults or leaves the advanced program counter. -/
theorem exec_advances {i : Instr} {s t : State} (run : exec i s = .next t) (other : ∀ b c, i ≠ .loadp b c) :
    (∃ k, t = s.enterFault k) ∨ t.pc = s.pc + 1 := by
  cases i with
  | loadp b c => exact absurd rfl (other b c)
  | cmov a b c =>
    rw [exec_cmov_iff] at run
    subst run
    split <;> exact .inr rfl
  | sload a b c =>
    obtain ⟨g, -, -, rfl⟩ | ⟨-, rfl⟩ | ⟨g, -, -, rfl⟩ := (exec_sload_iff a b c s t).1 run
    · exact .inr rfl
    all_goals exact .inl ⟨_, rfl⟩
  | sstore a b c =>
    obtain ⟨g, -, -, rfl⟩ | ⟨-, rfl⟩ | ⟨g, -, -, rfl⟩ := (exec_sstore_iff a b c s t).1 run
    · exact .inr rfl
    all_goals exact .inl ⟨_, rfl⟩
  | add a b c => exact .inr (congrArg State.pc ((exec_add_iff a b c s t).1 run))
  | mul a b c => exact .inr (congrArg State.pc ((exec_mul_iff a b c s t).1 run))
  | div a b c =>
    obtain ⟨-, rfl⟩ | ⟨-, rfl⟩ := (exec_div_iff a b c s t).1 run
    · exact .inr rfl
    · exact .inl ⟨_, rfl⟩
  | nand a b c => exact .inr (congrArg State.pc ((exec_nand_iff a b c s t).1 run))
  | halt => exact .inr (congrArg State.pc ((exec_halt_iff s t).1 run))
  | activate b c =>
    obtain ⟨-, h, rest, -, rfl⟩ | ⟨-, -, -, rfl⟩ | ⟨-, rfl⟩ := (exec_activate_iff b c s t).1 run
    · exact .inr rfl
    · exact .inr rfl
    · exact .inl ⟨_, rfl⟩
  | inactivate c =>
    obtain ⟨-, -, rfl⟩ | ⟨-, rfl⟩ | ⟨-, -, rfl⟩ | ⟨-, -, -, rfl⟩ := (exec_inactivate_iff c s t).1 run
    · exact .inr rfl
    all_goals exact .inl ⟨_, rfl⟩
  | out c =>
    obtain ⟨-, rfl⟩ | ⟨-, rfl⟩ := (exec_out_iff c s t).1 run
    · exact .inr rfl
    · exact .inl ⟨_, rfl⟩
  | inp c => exact .inr (congrArg State.pc ((exec_inp_iff c s t).1 run))
  | lv ia iv => exact .inr (congrArg State.pc ((exec_lv_iff ia iv s t).1 run))

/-- Settles O19: what an instruction leaves in `pc` unless it faults, and the room the invariant leaves for the advance. -/
theorem onlyLoadpWritesPc : Obligations.OnlyLoadpWritesPc := by
  refine ⟨fun i s t run completed other => of_completed completed (exec_advances run other),
    fun b c s t run completed => ?_, fun s w inv fetch => inv.advance_le fetch⟩
  obtain ⟨-, -, -, pc, -⟩ := of_completed completed (exec_loadp_cases run)
  exact pc

/-! ## The host's answers (R75) -/

/-- No guard and no result of the eleven other instructions reads the host's answers: other answers in their place are
carried along. -/
theorem exec_with_host (i : Instr) (s t : State) (x : HostAnswers) (apart : i.asksHost = false)
    (run : exec i s = .next t) : exec i { s with host := x } = .next { t with host := x } := by
  cases i with
  | activate | inp | loadp => cases apart
  | cmov a b c =>
    rw [exec_cmov_iff] at run ⊢
    subst run
    exact apply_ite (fun u : State => { u with host := x }) (s.readReg c ≠ 0#32) _ _
  | sload a b c =>
    rw [exec_sload_iff] at run ⊢
    obtain ⟨g, mapped, lt, rfl⟩ | ⟨unmapped, rfl⟩ | ⟨g, mapped, beyond, rfl⟩ := run
    · exact .inl ⟨g, mapped, lt, rfl⟩
    · exact .inr (.inl ⟨unmapped, rfl⟩)
    · exact .inr (.inr ⟨g, mapped, beyond, rfl⟩)
  | sstore a b c =>
    rw [exec_sstore_iff] at run ⊢
    obtain ⟨g, mapped, lt, rfl⟩ | ⟨unmapped, rfl⟩ | ⟨g, mapped, beyond, rfl⟩ := run
    · exact .inl ⟨g, mapped, lt, rfl⟩
    · exact .inr (.inl ⟨unmapped, rfl⟩)
    · exact .inr (.inr ⟨g, mapped, beyond, rfl⟩)
  | add a b c => exact (exec_add_iff a b c s t).1 run ▸ (exec_add_iff a b c _ _).2 rfl
  | mul a b c => exact (exec_mul_iff a b c s t).1 run ▸ (exec_mul_iff a b c _ _).2 rfl
  | div a b c =>
    rw [exec_div_iff] at run ⊢
    obtain ⟨nonzero, rfl⟩ | ⟨zero, rfl⟩ := run
    · exact .inl ⟨nonzero, rfl⟩
    · exact .inr ⟨zero, rfl⟩
  | nand a b c => exact (exec_nand_iff a b c s t).1 run ▸ (exec_nand_iff a b c _ _).2 rfl
  | halt => exact (exec_halt_iff s t).1 run ▸ (exec_halt_iff _ _).2 rfl
  | inactivate c =>
    rw [exec_inactivate_iff] at run ⊢
    obtain ⟨nonzero, mapped, rfl⟩ | ⟨zero, rfl⟩ | ⟨nonzero, beyond, rfl⟩ | ⟨nonzero, lt, unmapped, rfl⟩ := run
    · exact .inl ⟨nonzero, mapped, rfl⟩
    · exact .inr (.inl ⟨zero, rfl⟩)
    · exact .inr (.inr (.inl ⟨nonzero, beyond, rfl⟩))
    · exact .inr (.inr (.inr ⟨nonzero, lt, unmapped, rfl⟩))
  | out c =>
    rw [exec_out_iff] at run ⊢
    obtain ⟨fits, rfl⟩ | ⟨large, rfl⟩ := run
    · exact .inl ⟨fits, rfl⟩
    · exact .inr ⟨large, rfl⟩
  | lv ia iv => exact (exec_lv_iff ia iv s t).1 run ▸ (exec_lv_iff ia iv _ _).2 rfl

/-- Settles O25. -/
theorem onlyThreeInstructionsAskTheHost : Obligations.OnlyThreeInstructionsAskTheHost :=
  exec_with_host

end Sys2Proof.Machine
end

section
/-! PROOF. The statements of 41_register_memory.md: what CMOV, SLOAD and SSTORE do when they complete, and the faults of
an access outside memory. -/

namespace Sys2Proof.Machine

/-! ## Writing one register (R17, R70) -/

theorem State.writesOnly_writeReg (s : State) (a : RegIndex) (v : Word) :
    s.writesOnly (s.advancePc.writeReg a v) a v :=
  ⟨rfl, s.advancePc.readReg_writeReg a v, s.memoryKept_of_eq _ rfl, rfl, rfl, rfl⟩

/-- The advance alone is a write of any register's own value. -/
theorem State.writesOnly_advancePc (s : State) (a : RegIndex) : s.writesOnly s.advancePc a (s.readReg a) := by
  refine ⟨rfl, fun r => ?_, s.memoryKept_of_eq _ rfl, rfl, rfl, rfl⟩
  split
  · rename_i same
    exact same ▸ s.readReg_advancePc r
  · exact s.readReg_advancePc r

/-! ## Reads after a write to memory (R39, R40) -/

section
variable {s t : State} {h i : Nat} {v : Word}

/-- Read after write, over the whole memory. -/
theorem State.wordAt_of_segWrite (wf : s.mem.wf = true) (write : s.segWrite h i v = .ok t) (h' j : Nat) :
    t.wordAt h' j = if h' = h ∧ j = i then some v else s.wordAt h' j := by
  obtain ⟨g, mapped, lt, rfl⟩ := (State.segWrite_ok_iff s t h i v).1 write
  have word := g.word_setWord i j v (Memory.segment_wf _ h g wf mapped)
  simp only [State.wordAt_eq, State.segment?_setSlot_mapped h s.mem g _ h' mapped]
  by_cases slot : h' = h
  · subst slot
    by_cases index : j = i
    · subst index
      simp [lt, word]
    · simp [mapped, word, index]
  · simp [slot]

theorem State.segment?_len_of_segWrite (write : s.segWrite h i v = .ok t) (h' : Nat) :
    (t.mem.segment? h').map Segment.len = (s.mem.segment? h').map Segment.len := by
  obtain ⟨g, mapped, -, rfl⟩ := (State.segWrite_ok_iff s t h i v).1 write
  rw [State.segment?_setSlot_mapped h s.mem g _ h' mapped]
  split
  · rename_i slot
    rw [slot, mapped]
    rfl
  · rfl

end

/-! ## CMOV, SLOAD, SSTORE (R77 to R79) -/

/-- Settles O28: the store is a `SegWrite` in the advanced state, whose memory is that of the state before. -/
theorem sstoreCompletes : Obligations.SstoreCompletes := by
  intro a b c s g wf mapped lt
  have write := (s.advancePc.segWrite_ok_iff _ (s.regNat a) (s.regNat b) (s.readReg c)).2 ⟨g, mapped, lt, rfl⟩
  have words := State.wordAt_of_segWrite (s := s.advancePc) wf write
  have lengths := State.segment?_len_of_segWrite write
  refine ⟨_, (exec_sstore_iff a b c s _).2 (.inl ⟨g, mapped, lt, rfl⟩), ?_, fun h i other => ?_,
    lengths, s.mem.setSlot_count _ _, rfl, fun _ => rfl, rfl, rfl, rfl, rfl⟩
  · exact (words _ _).trans (if_pos ⟨rfl, rfl⟩)
  · exact (words h i).trans (if_neg other)

/-- Settles O26: the two branches of the condition register, the skipped move being the advance alone. -/
theorem cmovCompletes : Obligations.CmovCompletes := by
  intro a b c s
  refine ⟨_, (exec_cmov_iff a b c s _).2 rfl, fun nonzero => ?_, fun zero => ?_⟩
  · rw [if_pos (mt (s.regNat_eq_zero_iff c).2 nonzero)]
    exact s.writesOnly_writeReg a _
  · rw [if_neg (not_not.2 ((s.regNat_eq_zero_iff c).1 zero))]
    exact s.writesOnly_advancePc a

/-- Settles O27. -/
theorem sloadCompletes : Obligations.SloadCompletes := fun a b c s g mapped lt =>
  ⟨_, (exec_sload_iff a b c s _).2 (.inl ⟨g, mapped, lt, rfl⟩), s.writesOnly_writeReg a _⟩

/-- Settles O29: the two fault outcomes of SLOAD, then those of SSTORE. -/
theorem accessOutOfRangeFaults : Obligations.AccessOutOfRangeFaults := fun a b c s =>
  ⟨fun unmapped => (exec_sload_iff a b c s _).2 (.inr (.inl ⟨unmapped, rfl⟩)),
    fun g mapped beyond => (exec_sload_iff a b c s _).2 (.inr (.inr ⟨g, mapped, beyond, rfl⟩)),
    fun unmapped => (exec_sstore_iff a b c s _).2 (.inr (.inl ⟨unmapped, rfl⟩)),
    fun g mapped beyond => (exec_sstore_iff a b c s _).2 (.inr (.inr ⟨g, mapped, beyond, rfl⟩))⟩

end Sys2Proof.Machine
end

section
/-! PROOF. The statements of 42_arithmetic_logic.md: the words that ADD, MUL, DIV and NAND leave in their destination, and
the fault of DIV. -/

namespace Sys2Proof.Machine

/-! ## Numbers kept modulo 2^32 (R80) -/

theorem wrap32_toNat (n : Nat) : (wrap32 n).toNat = n % 2 ^ 32 := BitVec.toNat_ofNat n 32

/-- A quotient of two register values is at most its dividend, so storing it modulo 2^32 loses nothing. -/
theorem State.wrap32_div_toNat (s : State) (b c : RegIndex) :
    (wrap32 (s.regNat b / s.regNat c)).toNat = s.regNat b / s.regNat c := by
  have small : s.regNat b / s.regNat c < 2 ^ 32 := (Nat.div_le_self _ _).trans_lt (s.regNat_lt b)
  rw [wrap32_toNat, Nat.mod_eq_of_lt small]

/-! ## ADD, MUL, DIV, NAND (R81 to R84) -/

/-- Settles O30. -/
theorem addCompletes : Obligations.AddCompletes := fun a b c s =>
  ⟨_, _, (exec_add_iff a b c s _).2 rfl, wrap32_toNat _, s.writesOnly_writeReg a _⟩

/-- Settles O31. -/
theorem mulCompletes : Obligations.MulCompletes := fun a b c s =>
  ⟨_, _, (exec_mul_iff a b c s _).2 rfl, wrap32_toNat _, s.writesOnly_writeReg a _⟩

/-- Settles O32: the word written is the quotient itself, and the two bounds are those of the floor. -/
theorem divCompletes : Obligations.DivCompletes := by
  intro a b c s nonzero
  refine ⟨_, _, (exec_div_iff a b c s _).2 (.inl ⟨nonzero, rfl⟩), ?_, ?_, s.writesOnly_writeReg a _⟩
  · rw [s.wrap32_div_toNat]
    exact Nat.div_mul_le_self _ _
  · rw [s.wrap32_div_toNat, Nat.mul_comm]
    exact Nat.lt_mul_div_succ _ (Nat.pos_of_ne_zero nonzero)

/-- Settles O33: the fault outcome of DIV. -/
theorem divByZeroFaults : Obligations.DivByZeroFaults := fun a b c s zero =>
  (exec_div_iff a b c s _).2 (.inr ⟨zero, rfl⟩)

/-- Settles O34: the word written, read bit by bit. -/
theorem nandCompletes : Obligations.NandCompletes := by
  intro a b c s
  refine ⟨_, _, (exec_nand_iff a b c s _).2 rfl, fun j lt => ?_, s.writesOnly_writeReg a _⟩
  rw [BitVec.getLsbD_not, BitVec.getLsbD_and, decide_eq_true lt, Bool.true_and]

end Sys2Proof.Machine
end

section
/-! PROOF. The statements of 43_halt_segments.md: what HALT, ACTIVATE and INACTIVATE do when they complete, and the
faults of ACTIVATE and INACTIVATE. -/

namespace Sys2Proof.Machine

/-! ## A handle in a register (R11, R37) -/

section
variable {s t : State} {h : Nat}

theorem State.regNat_writeReg_zext32 (s : State) (b : RegIndex) (bound : h ≤ Config.handleMax) :
    (s.writeReg b (zext32 h)).regNat b = h := by
  rw [State.regNat, State.readReg_writeReg_same, zext32_toNat_of_le_handleMax h bound]

theorem State.readReg_writeReg_other (s : State) {b r : RegIndex} (v : Word) (other : r ≠ b) :
    (s.writeReg b v).readReg r = s.readReg r :=
  (s.readReg_writeReg b v r).trans (if_neg other)

/-- R24: a handle in the free pool has a slot. -/
theorem State.Inv.lt_count_of_mem_free (inv : s.Inv) (free : h ∈ s.mem.free) : h < s.mem.count :=
  (List.getElem?_eq_some_iff.1 (inv.freeUnmapped h free)).1

/-- R34: the words behind a handle depend on the segment it names alone. -/
theorem State.wordAt_congr_segment? (same : t.mem.segment? h = s.mem.segment? h) (j : Nat) :
    t.wordAt h j = s.wordAt h j := by
  rw [State.wordAt_eq, State.wordAt_eq, same]

end

/-! ## HALT, ACTIVATE, INACTIVATE (R85 to R87) -/

/-- Settles O36: by the invariant the head of the pool has a slot to write and fits a register. -/
theorem activateReusesOldestHandle : Obligations.ActivateReusesOldestHandle := by
  intro b c s h rest inv free ok
  have lt : h < s.mem.count := inv.lt_count_of_mem_free (free ▸ List.mem_cons_self)
  have bound : h ≤ Config.handleMax := Nat.le_of_lt_succ (Nat.lt_of_lt_of_le lt inv.countBound)
  have others (h' : Nat) (other : h' ≠ h) :=
    Memory.segment?_set_other s.mem.slots s.mem.free rest h h' (.mapped (Segment.zeros (s.regNat c))) other
  exact ⟨_, Segment.zeros (s.regNat c), (exec_activate_iff b c s _).2 (.inl ⟨ok, h, rest, free, rfl⟩),
    State.regNat_writeReg_zext32 _ b bound, fun _ => State.readReg_writeReg_other _ _,
    s.mem.segment?_setSlot_same h _ lt, rfl, Segment.zeros_word _, others,
    fun h' j other => State.wordAt_congr_segment? (others h' other) j,
    rfl, List.length_set, rfl, rfl, rfl, rfl⟩

/-- Settles O37: the slot appended to the table is the one that the old count names. -/
theorem activateMakesFreshHandle : Obligations.ActivateMakesFreshHandle := by
  intro b c s free bound ok
  have after (h' : Nat) := Memory.segment?_append s.mem.slots [] h' (.mapped (Segment.zeros (s.regNat c)))
  have others (h' : Nat) (other : h' ≠ s.mem.count) := (after h').trans (if_neg other)
  exact ⟨_, Segment.zeros (s.regNat c), (exec_activate_iff b c s _).2 (.inr (.inl ⟨ok, free, bound, rfl⟩)),
    State.regNat_writeReg_zext32 _ b bound, fun _ => State.readReg_writeReg_other _ _,
    (after s.mem.count).trans (if_pos rfl), rfl, Segment.zeros_word _, others,
    fun h' j other => State.wordAt_congr_segment? (others h' other) j,
    rfl, List.length_append, rfl, rfl, rfl, rfl⟩

/-- Settles O39: a mapped handle has a slot, which is unmapped afterwards. -/
theorem inactivateCompletes : Obligations.InactivateCompletes := by
  intro c s g nonzero mapped
  have lt := Memory.lt_count_of_segment? s.mem _ g mapped
  have unmapped : (s.mem.slots.set (s.regNat c) .unmapped)[s.regNat c]? = some .unmapped :=
    List.getElem?_set_self lt
  have others (h : Nat) (other : h ≠ s.regNat c) :=
    Memory.segment?_set_other s.mem.slots s.mem.free (s.mem.free ++ [s.regNat c]) _ h .unmapped other
  exact ⟨_, (exec_inactivate_iff c s _).2 (.inl ⟨nonzero, ⟨g, mapped⟩, rfl⟩),
    Memory.segment?_of_unmapped unmapped, unmapped, others,
    fun h j other => State.wordAt_congr_segment? (others h other) j,
    rfl, List.length_set, fun _ => rfl, rfl, rfl, rfl, rfl⟩

/-- Settles O35. -/
theorem haltCompletes : Obligations.HaltCompletes := fun s =>
  ⟨_, (exec_halt_iff s _).2 rfl, rfl, rfl, fun _ => rfl, s.memoryKept_of_eq _ rfl, rfl, rfl⟩

/-- Settles O38: the fault outcome of ACTIVATE. -/
theorem activateExhaustionFaults : Obligations.ActivateExhaustionFaults := fun b c s exhausted =>
  (exec_activate_iff b c s _).2 (.inr (.inr ⟨exhausted, rfl⟩))

/-- Settles O40: the three fault outcomes of INACTIVATE. -/
theorem inactivateFaults : Obligations.InactivateFaults := fun c s =>
  ⟨fun zero => (exec_inactivate_iff c s _).2 (.inr (.inl ⟨zero, rfl⟩)),
    fun nonzero beyond => (exec_inactivate_iff c s _).2 (.inr (.inr (.inl ⟨nonzero, beyond, rfl⟩))),
    fun nonzero lt unmapped => (exec_inactivate_iff c s _).2 (.inr (.inr (.inr ⟨nonzero, lt, unmapped, rfl⟩)))⟩

end Sys2Proof.Machine
end

section
/-! PROOF. The statements of 44_io.md: what OUT and IN do when they complete, and the fault of OUT. -/

namespace Sys2Proof.Machine

/-! ## Bytes and the words that hold them (R88, R89) -/

theorem byte_toNat_of_le {n : Nat} (fits : n ≤ 255) : (BitVec.ofNat 8 n).toNat = n :=
  (BitVec.toNat_ofNat n 8).trans (Nat.mod_eq_of_lt (Nat.lt_succ_of_le fits))

theorem inputWord_byte_toNat (b : Byte) : (inputWord (.byte b)).toNat = b.toNat :=
  zext32_toNat_of_le_handleMax b.toNat (b.isLt.le.trans (by decide))

/-- R89: a byte is at most 255, and the end of stream is the one larger value. -/
theorem inputWord_toNat_range (answer : InputAnswer) :
    (inputWord answer).toNat ≤ 255 ∨ (inputWord answer).toNat = 0xFFFFFFFF := by
  cases answer with
  | byte b => exact .inl ((inputWord_byte_toNat b).trans_le (Nat.le_of_lt_succ b.isLt))
  | eos => exact .inr rfl

theorem State.regNat_writeReg_same (s : State) (c : RegIndex) (v : Word) : (s.writeReg c v).regNat c = v.toNat :=
  congrArg BitVec.toNat (s.readReg_writeReg_same c v)

/-! ## OUT, IN (R88, R89) -/

/-- Settles O41: a value up to 255 is the byte emitted, and nothing but the output log and `pc` moves. -/
theorem outCompletes : Obligations.OutCompletes := fun c s fits =>
  ⟨_, _, (exec_out_iff c s _).2 (.inl ⟨fits, rfl⟩), byte_toNat_of_le fits, rfl,
    fun _ => rfl, s.memoryKept_of_eq _ rfl, rfl, rfl, rfl⟩

/-- Settles O42: the fault outcome of OUT. -/
theorem outOverflowFaults : Obligations.OutOverflowFaults := fun c s overflow =>
  (exec_out_iff c s _).2 (.inr ⟨overflow, rfl⟩)

/-- Settles O43: register C holds the word of the host's answer, whichever that is. -/
theorem inCompletes : Obligations.InCompletes := by
  intro c s
  have word := s.advancePc.drawInput.readReg_writeReg_same c (inputWord s.nextInput)
  have value := s.advancePc.drawInput.regNat_writeReg_same c (inputWord s.nextInput)
  refine ⟨_, (exec_inp_iff c s _).2 rfl, fun b byte => ?_, fun eos => ?_, ?_,
    fun _ => State.readReg_writeReg_other _ _, rfl, s.memoryKept_of_eq _ rfl, rfl, rfl, rfl⟩
  · rw [value, byte, inputWord_byte_toNat]
  · rw [word, eos, inputWord]
  · rw [value]
    exact inputWord_toNat_range s.nextInput

end Sys2Proof.Machine
end

section
/-! PROOF. The statements of 45_program_load.md: LOADP as a plain jump and as a replacement of segment 0, and its faults. -/

namespace Sys2Proof.Machine

/-- R34: two handles that name equal segments, each in its own state, read the same words. -/
theorem State.wordAt_eq_of_segment?_eq {s t : State} {h h' : Nat} (same : t.mem.segment? h' = s.mem.segment? h)
    (j : Nat) : t.wordAt h' j = s.wordAt h j := by
  rw [State.wordAt_eq, State.wordAt_eq, same]

/-! ## LOADP (R41, R90, R98) -/

/-- Settles O45: a mapped handle makes the table non-empty, so the copy lands in slot 0, and it is the only slot written. -/
theorem loadpReplaceCompletes : Obligations.LoadpReplaceCompletes := by
  intro b c s g nonzero mapped ok lt
  have pos : 0 < s.mem.count := Nat.zero_lt_of_lt (Memory.lt_count_of_segment? s.mem _ g mapped)
  have program := s.mem.segment?_setSlot_same 0 g pos
  have others (h : Nat) (other : h ≠ 0) :=
    Memory.segment?_set_other s.mem.slots s.mem.free s.mem.free 0 h (.mapped g) other
  exact ⟨_, (exec_loadp_iff b c s _).2 (.inr (.inl ⟨nonzero, g, mapped, ok, lt, rfl⟩)), rfl,
    program, State.wordAt_eq_of_segment?_eq (program.trans mapped.symm),
    others, fun h j other => State.wordAt_congr_segment? (others h other) j,
    rfl, s.mem.setSlot_count _ _, fun _ => rfl, rfl, rfl, rfl⟩

/-- Settles O44: only `pc` is set, the bound being the length of the segment 0 that stays. -/
theorem loadpJumpCompletes : Obligations.LoadpJumpCompletes := by
  intro b c s g zero program lt
  have pos : 0 < s.mem.count := Memory.lt_count_of_segment? s.mem 0 g program
  have inside : s.regNat c < s.mem.progLen := Memory.lt_progLen_iff.2 ⟨g, program, lt⟩
  exact ⟨_, (exec_loadp_iff b c s _).2 (.inl ⟨zero, pos, inside, rfl⟩), rfl,
    fun _ => rfl, s.memoryKept_of_eq _ rfl, rfl, rfl, rfl⟩

/-- Settles O46: the fault outcomes of LOADP, in the order handle, storage, target after a copy, target with handle 0. -/
theorem loadpFaults : Obligations.LoadpFaults := by
  intro b c s
  refine ⟨fun noSegment => ?_, fun g nonzero mapped refused => ?_, fun g nonzero mapped ok beyond => ?_,
    fun g zero program beyond => ?_⟩ <;> rw [exec_loadp_iff]
  · exact .inr (.inr (.inl ⟨noSegment, rfl⟩))
  · exact .inr (.inr (.inr (.inl ⟨nonzero, ⟨g, mapped, refused⟩, rfl⟩)))
  · exact .inr (.inr (.inr (.inr (.inr ⟨nonzero, ⟨g, mapped, ok, beyond⟩, rfl⟩))))
  · have pos : 0 < s.mem.count := Memory.lt_count_of_segment? s.mem 0 g program
    have outside : s.mem.progLen ≤ s.regNat c := (s.mem.progLen_of_segment? g program).trans_le beyond
    exact .inr (.inr (.inr (.inr (.inl ⟨zero, pos, outside, rfl⟩))))

end Sys2Proof.Machine
end

section
/-! PROOF. The statement of 46_load_immediate.md: the word that LV leaves in its destination. -/

namespace Sys2Proof.Machine

/-- R93: the check on a well-formed LV is the range of its immediate and nothing more. -/
theorem lv_wf_iff (ia : RegIndex) (iv : Nat) : (Instr.lv ia iv).wf = true ↔ iv < 2 ^ 25 := decide_eq_true_iff

theorem zext32_immediate_toNat {iv : Nat} (fits : iv < 2 ^ 25) : (zext32 iv).toNat = iv :=
  zext32_toNat_of_le_handleMax iv (fits.le.trans (by decide))

/-- Settles O47: a 25-bit immediate is the number of the word written, so the bound on it bounds the word. -/
theorem lvCompletes : Obligations.LvCompletes := by
  intro ia iv s wf
  have fits : iv < 2 ^ 25 := (lv_wf_iff ia iv).1 wf
  have value : (zext32 iv).toNat = iv := zext32_immediate_toNat fits
  exact ⟨_, _, (exec_lv_iff ia iv s _).2 rfl, value, value.trans_lt fits, s.writesOnly_writeReg ia _⟩

end Sys2Proof.Machine
end

section
/-! PROOF. The statements of 60_exceptions.md: the trace a fault leaves, where it can come from, and the codes of the fault
kinds. -/

namespace Sys2Proof.Machine

/-! ## What one instruction can raise (R95, R97) -/

/-- An instruction enters a fault of a kind its rule names, or it completes, which puts no fault into the run state. -/
theorem exec_raises_or_completes {i : Instr} {s t : State} (run : exec i s = .next t) :
    (∃ k ∈ i.faultKinds, t = s.enterFault k) ∨ t.run = s.run ∨ t.run = .halted := by
  cases i with
  | cmov a b c =>
    rw [exec_cmov_iff] at run
    subst run
    split <;> exact .inr (.inl rfl)
  | sload a b c =>
    obtain ⟨g, -, -, rfl⟩ | ⟨-, rfl⟩ | ⟨g, -, -, rfl⟩ := (exec_sload_iff a b c s t).1 run
    · exact .inr (.inl rfl)
    all_goals exact .inl ⟨_, by simp [Instr.faultKinds], rfl⟩
  | sstore a b c =>
    obtain ⟨g, -, -, rfl⟩ | ⟨-, rfl⟩ | ⟨g, -, -, rfl⟩ := (exec_sstore_iff a b c s t).1 run
    · exact .inr (.inl rfl)
    all_goals exact .inl ⟨_, by simp [Instr.faultKinds], rfl⟩
  | add a b c => exact (exec_add_iff a b c s t).1 run ▸ .inr (.inl rfl)
  | mul a b c => exact (exec_mul_iff a b c s t).1 run ▸ .inr (.inl rfl)
  | div a b c =>
    obtain ⟨-, rfl⟩ | ⟨-, rfl⟩ := (exec_div_iff a b c s t).1 run
    · exact .inr (.inl rfl)
    · exact .inl ⟨_, by simp [Instr.faultKinds], rfl⟩
  | nand a b c => exact (exec_nand_iff a b c s t).1 run ▸ .inr (.inl rfl)
  | halt => exact (exec_halt_iff s t).1 run ▸ .inr (.inr rfl)
  | activate b c =>
    obtain ⟨-, h, rest, -, rfl⟩ | ⟨-, -, -, rfl⟩ | ⟨-, rfl⟩ := (exec_activate_iff b c s t).1 run
    · exact .inr (.inl rfl)
    · exact .inr (.inl rfl)
    · exact .inl ⟨_, by simp [Instr.faultKinds], rfl⟩
  | inactivate c =>
    obtain ⟨-, -, rfl⟩ | ⟨-, rfl⟩ | ⟨-, -, rfl⟩ | ⟨-, -, -, rfl⟩ := (exec_inactivate_iff c s t).1 run
    · exact .inr (.inl rfl)
    all_goals exact .inl ⟨_, by simp [Instr.faultKinds], rfl⟩
  | out c =>
    obtain ⟨-, rfl⟩ | ⟨-, rfl⟩ := (exec_out_iff c s t).1 run
    · exact .inr (.inl rfl)
    · exact .inl ⟨_, by simp [Instr.faultKinds], rfl⟩
  | inp c => exact (exec_inp_iff c s t).1 run ▸ .inr (.inl rfl)
  | loadp b c =>
    obtain ⟨-, -, -, rfl⟩ | ⟨-, g, -, -, -, rfl⟩ | ⟨-, rfl⟩ | ⟨-, -, rfl⟩ | ⟨-, -, -, rfl⟩ | ⟨-, -, rfl⟩ :=
      (exec_loadp_iff b c s t).1 run
    · exact .inr (.inl rfl)
    · exact .inr (.inl rfl)
    all_goals exact .inl ⟨_, by simp [Instr.faultKinds], rfl⟩
  | lv ia iv => exact (exec_lv_iff ia iv s t).1 run ▸ .inr (.inl rfl)

theorem exec_fault {i : Instr} {s t : State} {k : FaultKind} (running : s.run = .running) (run : exec i s = .next t)
    (faulted : t.run = .faulted k) : t = s.enterFault k ∧ k ∈ i.faultKinds := by
  obtain ⟨k', raised, rfl⟩ | kept | halted := exec_raises_or_completes run
  · obtain rfl : k' = k := RunState.faulted.inj faulted
    exact ⟨rfl, raised⟩
  · simp [kept, running] at faulted
  · simp [halted] at faulted

/-! ## What one step can raise (R95, R97) -/

/-- R97: the sources a fault of kind `k` may have in a step from `s`, in the order in which the step meets them. -/
inductive State.Raises (s : State) (k : FaultKind) : Prop where
  | fetch (failed : s.fetch = .error k)
  | decode (w : Word) (fetched : s.fetch = .ok w) (invalid : 14 ≤ opcodeOf w) (kind : k = .invalidOpcode)
  | instr (w : Word) (i : Instr) (fetched : s.fetch = .ok w) (decoded : decode w = .instr i)
      (raised : k ∈ i.faultKinds)

/-- The step's three stages in turn: in each, the state it answers is that of fault entry. -/
theorem step_fault {s t : State} {k : FaultKind} (next : step s = .next t) (faulted : t.run = .faulted k) :
    t = s.enterFault k ∧ s.Raises k := by
  have running : s.run = .running := (stepsExactlyWhileRunning s).2 ⟨t, next⟩
  cases fetch : s.fetch with
  | error k' =>
    obtain rfl : s.enterFault k' = t := Host.Outcome.next.inj ((step_of_fetch_error running fetch).symm.trans next)
    obtain rfl : k' = k := RunState.faulted.inj faulted
    exact ⟨rfl, .fetch fetch⟩
  | ok w =>
    obtain ⟨-, i, decoded⟩ | ⟨invalid, -⟩ := decode_cases w
    · have run : exec i s = .next t := (step_of_decoded running fetch decoded).symm.trans next
      obtain ⟨entered, raised⟩ := exec_fault running run faulted
      exact ⟨entered, .instr w i fetch decoded raised⟩
    · obtain rfl : s.enterFault .invalidOpcode = t :=
        Host.Outcome.next.inj ((step_of_invalid running fetch invalid).symm.trans next)
      obtain rfl : .invalidOpcode = k := RunState.faulted.inj faulted
      exact ⟨rfl, .decode w fetch invalid rfl⟩

/-- Settles O12. -/
theorem faultingStepHasNoOtherEffect : Obligations.FaultingStepHasNoOtherEffect :=
  fun _ _ _ next faulted => (step_fault next faulted).1

/-- R69: with segment 0 mapped a fetch fails on the index alone. -/
theorem State.fetch_error_kind {s : State} {k : FaultKind} (program : (s.mem.segment? 0).isSome = true)
    (failed : s.fetch = .error k) : k = .wordIndexOutOfRange := by
  obtain ⟨unmapped, -⟩ | ⟨-, -, -, kind⟩ := (s.segRead_error_iff 0 s.pc k).1 failed
  · simp [unmapped] at program
  · exact kind

/-- Settles O13. -/
theorem faultsHaveTheirCauses : Obligations.FaultsHaveTheirCauses := by
  intro s t k program next faulted
  obtain ⟨-, raises⟩ := step_fault next faulted
  cases raises with
  | fetch failed => exact .inl ⟨failed, State.fetch_error_kind program failed⟩
  | decode w fetched invalid kind => exact .inr ⟨w, fetched, .inl ⟨invalid, kind⟩⟩
  | instr w i fetched decoded raised => exact .inr ⟨w, fetched, .inr ⟨i, decoded, raised⟩⟩

/-! ## The codes of the fault kinds (R96) -/

/-- The table of R96, read from the code to the kind. -/
def FaultKind.ofCode : Nat → Option FaultKind
  | 1 => some .invalidOpcode
  | 2 => some .segmentOutOfRange
  | 3 => some .wordIndexOutOfRange
  | 4 => some .divideByZero
  | 5 => some .invalidUnmap
  | 6 => some .outputOverflow
  | 7 => some .programCounterOutOfRange
  | 8 => some .resourceExhausted
  | _ => none

theorem FaultKind.ofCode_code (k : FaultKind) : ofCode k.code = some k := by
  cases k <;> rfl

theorem FaultKind.code_range (k : FaultKind) : 1 ≤ k.code ∧ k.code ≤ 8 := by
  cases k <;> decide

/-- Settles O57: the code gives the kind back, so no two kinds share one. -/
theorem faultCodesAreDistinct : Obligations.FaultCodesAreDistinct := by
  refine ⟨FaultKind.code_range, fun k k' same => Option.some.inj ?_⟩
  calc some k = FaultKind.ofCode k.code := k.ofCode_code.symm
    _ = FaultKind.ofCode k'.code := by rw [same]
    _ = some k' := k'.ofCode_code

end Sys2Proof.Machine
end
